-- ==== Sys2Proof/Word.lean ====
section
/-! DEFINITION. Word.lean: the fixed-width words of the FWI unit (00_scope.md R7, R11). -/

namespace Sys2Proof

/-- One byte of BUF (10_state.md R26). -/
abbrev Byte := BitVec 8

/-- One 32-bit host word: the data of a host access and a command word (20_memory.md R52,
30_encoding.md R70). -/
abbrev Word := BitVec 32

/-- One limb: H = 32 bits, half a machine word (00_scope.md R8, 10_state.md R22). -/
abbrev Limb := BitVec 32

/-- One machine word of W = 64 bits (00_scope.md R8). -/
abbrev MachineWord := BitVec 64

/-- A value: its limbs, limb 0 (the least significant) first (00_scope.md R12, 10_state.md R21). -/
abbrev Value := List Limb

end Sys2Proof
end

