-- ==== Sys2Proof/Syntax.lean ====
section
/-! DEFINITION. Syntax.lean: the 14 commands of the opcode map (30_encoding.md R79). -/

namespace Sys2Proof

/-- A value register number; all 16 are legal (30_encoding.md R72, R73). -/
abbrev Reg := Fin 16

/-- One command. `rd` is the receiver, `rs` the argument (30_encoding.md R72, R73); `fn` is the
8-bit modifier FN of the two commands that use it (R74), of which WellFormed says which values
are legal (R76). -/
inductive Instr where
  | clr (rd : Reg)
  | mov (rd rs : Reg)
  | ldu (rd : Reg) (fn : BitVec 8)
  | lddec (rd : Reg)
  | ldbytes (rd : Reg)
  | ldhex (rd : Reg)
  | cmp (rd rs : Reg)
  | neg (rd : Reg)
  | negtc (rd : Reg)
  | add (rd rs : Reg)
  | sub (rd rs : Reg)
  | subtc (rd rs : Reg)
  | mul (rd rs : Reg)
  | tohex (rs : Reg) (fn : BitVec 8)
deriving DecidableEq, Repr

end Sys2Proof
end

