-- ==== Sys2Proof/WellFormed.lean ====
section
/-! DEFINITION. WellFormed.lean: which command terms are legal commands (30_encoding.md R76). Register
numbers are legal by their type; what is left is the modifier of the two commands that use FN. -/

namespace Sys2Proof

/-- LDU's size code: "bits 7:2 must be 0" (30_encoding.md R76, R77). -/
def sizeCodeOk (fn : BitVec 8) : Bool := fn.extractLsb' 2 6 == 0#6

/-- TOHEX's case: "bits 7:1 must be 0" (30_encoding.md R76, R78). -/
def caseCodeOk (fn : BitVec 8) : Bool := fn.extractLsb' 1 7 == 0#7

/-- The term is a legal command (30_encoding.md R76). -/
def Instr.wellFormed (i : Instr) : Bool :=
  match i with
  | .clr _ => true
  | .mov _ _ => true
  | .ldu _ fn => sizeCodeOk fn
  | .lddec _ => true
  | .ldbytes _ => true
  | .ldhex _ => true
  | .cmp _ _ => true
  | .neg _ => true
  | .negtc _ => true
  | .add _ _ => true
  | .sub _ _ => true
  | .subtc _ _ => true
  | .mul _ _ => true
  | .tohex _ fn => caseCodeOk fn

end Sys2Proof
end

