-- ==== Sys2Proof/Decode.lean ====
section
/-! DEFINITION. Decode.lean: from a command word to a command (30_encoding.md R70 to R84), and back
(R85). -/

namespace Sys2Proof

/-- Why a word is illegal (30_encoding.md R80). Both are E_ILLEGAL to the machine. -/
inductive DecodeError where
  /-- OPC is not in the opcode map. -/
  | reservedOpcode
  /-- OPC is in the map, and a reserved bit or an unused field is not 0. -/
  | nonZeroUnusedBits
deriving DecidableEq, Repr

/-- The operations of the opcode map (30_encoding.md R79). -/
inductive Operation where
  | clr | mov | ldu | lddec | ldbytes | ldhex | cmp | neg | negtc | add | sub | subtc | mul | tohex
deriving DecidableEq, Repr

/-- Every operation, in the order of the opcode map. -/
def allOperations : List Operation :=
  [.clr, .mov, .ldu, .lddec, .ldbytes, .ldhex, .cmp, .neg, .negtc, .add, .sub, .subtc, .mul, .tohex]

/-- The OPC column of the opcode map (30_encoding.md R79). -/
def opcOf (o : Operation) : BitVec 8 :=
  match o with
  | .clr => 0x01#8
  | .mov => 0x02#8
  | .ldu => 0x03#8
  | .lddec => 0x04#8
  | .ldbytes => 0x05#8
  | .ldhex => 0x06#8
  | .cmp => 0x08#8
  | .neg => 0x10#8
  | .negtc => 0x11#8
  | .add => 0x12#8
  | .sub => 0x13#8
  | .subtc => 0x14#8
  | .mul => 0x15#8
  | .tohex => 0x18#8

/-- The mask column (30_encoding.md R79). -/
def maskOf (o : Operation) : Word :=
  match o with
  | .clr => 0xFFFFF0FF#32
  | .mov => 0xFFFF00FF#32
  | .ldu => 0xFFFCF0FF#32
  | .lddec => 0xFFFFF0FF#32
  | .ldbytes => 0xFFFFF0FF#32
  | .ldhex => 0xFFFFF0FF#32
  | .cmp => 0xFFFF00FF#32
  | .neg => 0xFFFFF0FF#32
  | .negtc => 0xFFFFF0FF#32
  | .add => 0xFFFF00FF#32
  | .sub => 0xFFFF00FF#32
  | .subtc => 0xFFFF00FF#32
  | .mul => 0xFFFF00FF#32
  | .tohex => 0xFFFE0FFF#32

/-- The match column: OPC in bits 7:0 and zeros (30_encoding.md R79). -/
def matchOf (o : Operation) : Word := (opcOf o).setWidth 32

/-- OPC, bits 7:0 (30_encoding.md R70). -/
def opcField (c : Word) : BitVec 8 := c.extractLsb' 0 8

/-- RD, bits 11:8 (30_encoding.md R70). -/
def rdField (c : Word) : Reg := (c.extractLsb' 8 4).toFin

/-- RS, bits 15:12 (30_encoding.md R70). -/
def rsField (c : Word) : Reg := (c.extractLsb' 12 4).toFin

/-- FN, bits 23:16 (30_encoding.md R70). -/
def fnField (c : Word) : BitVec 8 := c.extractLsb' 16 8

/-- The operation an OPC value selects: the eight bits are compared whole (30_encoding.md R71). -/
def operationOf (opc : BitVec 8) : Option Operation :=
  allOperations.find? (fun o => opcOf o == opc)

/-- The command with the fields its shape uses (30_encoding.md R76). -/
def instrOf (o : Operation) (c : Word) : Instr :=
  match o with
  | .clr => .clr (rdField c)
  | .mov => .mov (rdField c) (rsField c)
  | .ldu => .ldu (rdField c) (fnField c)
  | .lddec => .lddec (rdField c)
  | .ldbytes => .ldbytes (rdField c)
  | .ldhex => .ldhex (rdField c)
  | .cmp => .cmp (rdField c) (rsField c)
  | .neg => .neg (rdField c)
  | .negtc => .negtc (rdField c)
  | .add => .add (rdField c) (rsField c)
  | .sub => .sub (rdField c) (rsField c)
  | .subtc => .subtc (rdField c) (rsField c)
  | .mul => .mul (rdField c) (rsField c)
  | .tohex => .tohex (rsField c) (fnField c)

/-- Decoding, total on every word: first OPC, then mask and match (30_encoding.md R84). Reads nothing
but the word. -/
def decode (c : Word) : Except DecodeError Instr :=
  match operationOf (opcField c) with
  | none => .error .reservedOpcode
  | some o => if c &&& maskOf o = matchOf o then .ok (instrOf o c) else .error .nonZeroUnusedBits

/-- The operation of a command. -/
def operation (i : Instr) : Operation :=
  match i with
  | .clr _ => .clr
  | .mov _ _ => .mov
  | .ldu _ _ => .ldu
  | .lddec _ => .lddec
  | .ldbytes _ => .ldbytes
  | .ldhex _ => .ldhex
  | .cmp _ _ => .cmp
  | .neg _ => .neg
  | .negtc _ => .negtc
  | .add _ _ => .add
  | .sub _ _ => .sub
  | .subtc _ _ => .subtc
  | .mul _ _ => .mul
  | .tohex _ _ => .tohex

/-- "The word is {8'h00, FN, RS, RD, OPC}" (30_encoding.md R85). -/
def packWord (fn : BitVec 8) (rs rd : Reg) (opc : BitVec 8) : Word :=
  0#8 ++ fn ++ BitVec.ofNat 4 rs.val ++ BitVec.ofNat 4 rd.val ++ opc

/-- The word of a command; the fields its shape does not use are 0 (30_encoding.md R76, R85). -/
def encode (i : Instr) : Word :=
  match i with
  | .clr rd => packWord 0 0 rd (opcOf .clr)
  | .mov rd rs => packWord 0 rs rd (opcOf .mov)
  | .ldu rd fn => packWord fn 0 rd (opcOf .ldu)
  | .lddec rd => packWord 0 0 rd (opcOf .lddec)
  | .ldbytes rd => packWord 0 0 rd (opcOf .ldbytes)
  | .ldhex rd => packWord 0 0 rd (opcOf .ldhex)
  | .cmp rd rs => packWord 0 rs rd (opcOf .cmp)
  | .neg rd => packWord 0 0 rd (opcOf .neg)
  | .negtc rd => packWord 0 0 rd (opcOf .negtc)
  | .add rd rs => packWord 0 rs rd (opcOf .add)
  | .sub rd rs => packWord 0 rs rd (opcOf .sub)
  | .subtc rd rs => packWord 0 rs rd (opcOf .subtc)
  | .mul rd rs => packWord 0 rs rd (opcOf .mul)
  | .tohex rs fn => packWord fn rs 0 (opcOf .tohex)

/-- The instruction read from an instruction of `nbits` bits whose value is `w`, the bits above
`nbits` being 0. A command is always one 32-bit word (30_encoding.md R83), written to CMD whole, so
its bit numbers are the word's own. -/
def decodeTableWord (nbits w : Nat) : Option Instr :=
  if nbits ≤ 32 then
    match decode (BitVec.ofNat 32 (w % 2 ^ nbits)) with
    | .ok i => some i
    | .error _ => none
  else none

end Sys2Proof
end

