-- ==== Sys2Proof/Config.lean ====
section
/-! DEFINITION. Config.lean: what one build and one platform fix (00_scope.md R7), and the free
values, which the spec leaves open (93_implementation_defined.md U11 to U13). -/

namespace Sys2Proof.Config

/-- Which decimal conversion LDDEC performs (00_scope.md R7, decision D17). -/
inductive DecMode where
  | exact
  | source
deriving DecidableEq, Repr

/-- What MUL does with the carry out of a result-limb accumulation (00_scope.md R7, decision D25). -/
inductive MulCarry where
  | propagate
  | drop
deriving DecidableEq, Repr

/-- The value width, as its number of limbs L = N / 32, with 96 <= N <= 512 (00_scope.md R9, R10).
The bounds are carried with the number, so a width the spec gives no rule for (93 U19) cannot be
built. -/
structure Width where
  limbs : Nat
  lower : 3 ≤ limbs
  upper : limbs ≤ 16
deriving DecidableEq, Repr

/-- FWI-128: L = 4 (00_scope.md R7). -/
def fwi128 : Width := ⟨4, by decide, by decide⟩

/-- FWI-256: L = 8 (00_scope.md R7). -/
def fwi256 : Width := ⟨8, by decide, by decide⟩

/-- The parameters of 00_scope.md R7 that are not the same in every block, and the platform's
FWI_IRQ (60_exceptions.md R176). -/
structure Params where
  width    : Width
  decMode  : DecMode
  mulCarry : MulCarry
  fwiBase  : Nat
  fwiIrq   : Nat
deriving DecidableEq, Repr

/-- The build `State.reset` is of: FWI-128 with the spec's default modes (00_scope.md R7).
DESIGN CHOICE (log entry 2): the width among the two pre-defined ones, FWI_BASE = 0, FWI_IRQ = 0. -/
def defaultParams : Params :=
  { width := fwi128, decMode := .exact, mulCarry := .propagate, fwiBase := 0, fwiIrq := 0 }

/-- BUF_BYTES (00_scope.md R7). -/
abbrev bufBytes : Nat := 256

/-- The free 32-bit value of draw `d`: what a read that the spec calls unspecified returns
(20_memory.md R52, R63; 93 U12, U13). No body: nothing constrains it (log entry 5). -/
opaque freeWord : Nat → BitVec 32

/-- The free byte that BUF[j] reads as in draw `d` when nothing has written it since reset
(10_state.md R40; 93 U11: "any value, per byte, per read"). No body (log entries 4 and 5). -/
opaque freeByte : Nat → Nat → BitVec 8

end Sys2Proof.Config
end

