-- ==== Sys2Proof/Machine/State.lean ====
section
/-! DEFINITION. Machine/State.lean: the state of the FWI unit (10_state.md R20), as plain data. -/

namespace Sys2Proof.Machine

open Sys2Proof.Config

/-- BUF as a list of (index, byte) pairs, indexes strictly rising. An index that is not listed is a
byte that nothing has written since reset: it reads as a free value (10_state.md R40; log entry 4). -/
abbrev Memory := List Host.Cell

/-- STATUS.CMP's three results (10_state.md R33); 0b11 is never written. -/
inductive CmpResult where
  | eq
  | lt
  | gt
deriving DecidableEq, Repr

/-- The codes of STATUS.ERR (60_exceptions.md R160); 7 to 15 are never written. -/
inductive ErrCode where
  | none
  | illegal
  | unimpl
  | busy
  | size
  | digit
  | overflow
deriving DecidableEq, Repr

/-- One access of the host: its address, its width in bytes and, for a write, the data
(20_memory.md R52). A width other than 4 never delivers its data, so the data is always a word. -/
inductive Access where
  | read (addr bytes : Nat)
  | write (addr bytes : Nat) (value : Word)
deriving DecidableEq, Repr

/-- One turn of the total order of 20_memory.md R62: who moves next (log entry 1). -/
inductive Turn where
  /-- The host makes one access. -/
  | host (a : Access)
  /-- The unit runs the command in flight to its end, if there is one. -/
  | unit
  /-- The host's access and the end of the command in flight fall in the same step
  (10_state.md R31; log entry 9). -/
  | hostAndUnit (a : Access)
  /-- The reset input (70_reset_and_hazards.md R180). -/
  | reset
deriving DecidableEq, Repr

/-- What the block answered to the host's last access (20_memory.md R52; log entry 10). -/
inductive Response where
  /-- No access yet. -/
  | idle
  /-- A write was taken from the bus (whether or not it had an effect). -/
  | written
  /-- The data of a read. -/
  | data (v : Word)
  /-- The bus error answer to a read, with the unspecified data of the failed read. -/
  | readError (v : Word)
  /-- The bus error answer to a write. -/
  | writeError
deriving DecidableEq, Repr

/-- Why the machine stops. -/
inductive Fault where
  /-- Raised by a host access whose address is not in the block's 2 KiB register space
  (20_memory.md R50): it does not reach the block, so the spec gives no answer. Safe: the model
  stops where a platform would send the access elsewhere (log entry 7). -/
  | outsideRegisterSpace
deriving DecidableEq, Repr

/-- Why a step has no meaning. -/
inductive Refusal where
  /-- Raised by `exec` for an instruction without a meaning; no arm uses it. Safe. -/
  | notModelled (mnemonic : String)
deriving DecidableEq, Repr

/-- Everything 10_state.md R20 gives the block, the parameters of the build and the platform, and
the model's own `response`, `schedule` and `draws`. -/
structure State where
  /-- The parameters (00_scope.md R7); CFG is computed from them (10_state.md R27). -/
  params   : Params
  /-- V0 to V15, each of L limbs (10_state.md R21). -/
  v        : Vector Value 16
  /-- BUF (10_state.md R26). -/
  buf      : Memory
  /-- CTRL.DONE_IE (10_state.md R28). -/
  doneIe   : Bool
  /-- CTRL.ERR_IE (10_state.md R28). -/
  errIe    : Bool
  /-- STATUS.DONE (10_state.md R31). -/
  done     : Bool
  /-- STATUS.MOVF (10_state.md R32). -/
  movf     : Bool
  /-- STATUS.CMP (10_state.md R33). -/
  cmp      : CmpResult
  /-- STATUS.ERR (10_state.md R34). -/
  err      : ErrCode
  /-- LEN (10_state.md R37). -/
  len      : BitVec 16
  /-- SCALAR = {SCALAR_HI, SCALAR_LO} (10_state.md R38). -/
  scalar   : MachineWord
  /-- The in-flight command word (10_state.md R39); STATUS.BUSY is 1 exactly while there is one
  (R30). -/
  inFlight : Option Word
  /-- Model's own: the answer to the host's last access. -/
  response : Response
  /-- Model's own: the turns to come. When it is empty, the unit moves. -/
  schedule : List Turn
  /-- Model's own: the number of the next draw of free values; every step advances it. -/
  draws    : Nat
deriving DecidableEq, Repr

/-- The state right after power-on reset of a block with the given parameters
(10_state.md R40; 70_reset_and_hazards.md R180 to R182). -/
def State.resetOf (p : Params) : State :=
  { params := p
    v := Vector.replicate 16 (List.replicate p.width.limbs 0#32)
    buf := []
    doneIe := false
    errIe := false
    done := false
    movf := false
    cmp := .eq
    err := .none
    len := 0#16
    scalar := 0#64
    inFlight := none
    response := .idle
    schedule := []
    draws := 0 }

/-- The machine right after reset: FWI-128 with the spec's default modes (log entry 2). -/
def State.reset : State := State.resetOf defaultParams

end Sys2Proof.Machine
end

