-- ==== Sys2Proof/Machine/Ops.lean ====
section
/-! DEFINITION. Machine/Ops.lean: the named operations over BUF, the value registers and STATUS:
finishing a command, raising an error and clearing it, the interrupt line, reset. -/

namespace Sys2Proof.Machine

open Sys2Proof.Config

/-! ### BUF -/

/-- The byte listed at index `a`; `none` for a byte nothing has written since reset. -/
def Memory.read (m : Memory) (a : Nat) : Option Byte :=
  match m with
  | [] => none
  | (k, b) :: rest => if k = a then some b else Memory.read rest a

/-- `BUF[a] <- b` (00_scope.md R13), keeping the list sorted. -/
def Memory.write (m : Memory) (a : Nat) (b : Byte) : Memory :=
  match m with
  | [] => [(a, b)]
  | (k, x) :: rest =>
    if a < k then (a, b) :: (k, x) :: rest
    else if a = k then (a, b) :: rest
    else (k, x) :: Memory.write rest a b

/-- `BUF[a + j] <- bs[j]` for every j. -/
def Memory.writeList (m : Memory) (a : Nat) (bs : List Byte) : Memory :=
  match bs with
  | [] => m
  | b :: rest => Memory.writeList (Memory.write m a b) (a + 1) rest

/-- The indexes of the list are above `lo`'s predecessor, strictly rising and below `hi`. -/
def Memory.sortedIn (lo hi : Nat) (m : Memory) : Bool :=
  match m with
  | [] => true
  | (k, _) :: rest => decide (lo ≤ k) && decide (k < hi) && Memory.sortedIn (k + 1) hi rest

/-- BUF's canonical form: indexes strictly rising, all below BUF_BYTES. An unlisted index reads as a
free value, so no listed byte equals what an unlisted one reads as by rule. -/
def Memory.wf (m : Memory) : Bool := Memory.sortedIn 0 bufBytes m

/-- BUF[j] as a read of the present step sees it: the listed byte, or a free value when nothing has
written it since reset (10_state.md R40, 93 U11). -/
def State.readBuf (s : State) (j : Nat) : Byte :=
  match Memory.read s.buf j with
  | some b => b
  | none => freeByte s.draws j

/-! ### Value registers -/

/-- L, the limbs per value (00_scope.md R10). -/
def State.limbs (s : State) : Nat := s.params.width.limbs

/-- `V[r]` (00_scope.md R13). -/
def State.getV (s : State) (r : Reg) : Value := s.v[r]

/-- `V[r] <- x` for a limb sequence x (00_scope.md R13). -/
def State.setV (s : State) (r : Reg) (x : Value) : State := { s with v := s.v.set r x }

/-! ### The life of a command -/

/-- STATUS.BUSY: 1 exactly while a command is in flight (10_state.md R30). -/
def State.busy (s : State) : Bool := s.inFlight.isSome

/-- The last step of every accepted command: `BUSY <- 0; DONE <- 1` (30_encoding.md R84,
10_state.md R31). -/
def State.finish (s : State) : State := { s with inFlight := none, done := true }

/-- A command completes: its writes and the end of BUSY appear together (20_memory.md R61). -/
def complete (s : State) : Host.Outcome State Fault Refusal := .next s.finish

/-- ERR is written only when it is 0: the first error wins (10_state.md R34). -/
def State.recordErr (s : State) (e : ErrCode) : State :=
  { s with err := if s.err = .none then e else s.err }

/-- `raise E_X` inside a command: the whole effect is ERR, when it was 0, and the end of the command
(60_exceptions.md R167). -/
def raiseErr (e : ErrCode) (s : State) : Host.Outcome State Fault Refusal := .next (s.recordErr e).finish

/-- E_BUSY, raised by a host write while BUSY = 1: ERR alone, when it was 0 (60_exceptions.md R163). -/
def State.raiseBusy (s : State) : State := s.recordErr .busy

/-- Return from an error: ERRCLR, which restores nothing else (60_exceptions.md R172). -/
def State.clearErr (s : State) : State := { s with err := .none }

/-- The W1C of DONE (10_state.md R31). -/
def State.clearDone (s : State) : State := { s with done := false }

/-- A CMD write: ignored with E_BUSY while a command is in flight; discarded while ERR is not 0;
else accepted (10_state.md R36, 60_exceptions.md R163, R168). -/
def State.issue (s : State) (c : Word) : State :=
  if s.busy then s.raiseBusy
  else if s.err = .none then { s with inFlight := some c }
  else s

/-- The write of a register that only an idle block takes; while BUSY = 1 it is ignored and raises
E_BUSY (20_memory.md R63, 60_exceptions.md R163). -/
def State.whenIdle (s written : State) : State :=
  if s.busy then s.raiseBusy else written

/-- Reset of a running block: every piece of state of 10_state.md R40 takes its reset value, BUF is
unspecified again, and the command in flight is abandoned (70_reset_and_hazards.md R180). The
parameters are the build's and stay; so do the model's own fields (log entry 13). -/
def State.blockReset (s : State) : State :=
  { State.resetOf s.params with response := s.response, schedule := s.schedule, draws := s.draws }

/-! ### The interrupt line -/

/-- `irq = (DONE_IE and DONE = 1) or (ERR_IE and ERR != 0)` (60_exceptions.md R174). -/
def State.irq (s : State) : Bool := (s.doneIe && s.done) || (s.errIe && decide (s.err ≠ .none))

/-- The host's interrupt input `k` as the block drives it: only input FWI_IRQ is connected
(60_exceptions.md R176). -/
def State.hostIrqInput (s : State) (k : Nat) : Bool := decide (k = s.params.fwiIrq) && s.irq

/-! ### Free values -/

/-- The free word of the present step. -/
def State.freeWord (s : State) : Word := Config.freeWord s.draws

/-- The next step draws anew (log entry 5). -/
def State.tick (s : State) : State := { s with draws := s.draws + 1 }

end Sys2Proof.Machine
end

