-- ==== Sys2Proof/Machine/Operands.lean ====
section
/-! DEFINITION. Machine/Operands.lean: values as numbers, and the operand forms of the commands: the
slice of SCALAR, the string and byte buffer in BUF, the hexadecimal text. -/

namespace Sys2Proof.Machine

open Sys2Proof.Config

/-! ### Values and numbers -/

/-- `val(V) = sum over i of V[i] * 2^(32*i)` (00_scope.md R12). -/
def val (a : Value) : Nat :=
  match a with
  | [] => 0
  | x :: rest => x.toNat + 2 ^ 32 * val rest

/-- `limbs(x)`: limb i is `(x >> (32*i)) mod 2^32`, for i < L (00_scope.md R12). -/
def limbsOf (L x : Nat) : Value := (List.range L).map (fun i => BitVec.ofNat 32 (x >>> (32 * i)))

/-- All L limbs 0. -/
def zeroValue (L : Nat) : Value := List.replicate L 0#32

/-- `V[i]` of a limb sequence. -/
def limbAt (a : Value) (i : Nat) : Limb := a.getD i 0#32

/-- The signed value of an N-bit value: `val - 2^N` when bit N-1 is 1 (00_scope.md R14). No command
computes with it. -/
def signedVal (a : Value) : Int :=
  if (limbAt a (a.length - 1)).msb then (val a : Int) - 2 ^ (32 * a.length) else val a

/-! ### The operand of LDU -/

/-- The width in bits that LDU's size code picks: `8 * 2^FN[1:0]` (30_encoding.md R77). -/
def lduWidth (fn : BitVec 8) : Nat := 8 * 2 ^ (fn.extractLsb' 0 2).toNat

/-- `SCALAR[w-1:0]` (40_construction.md R103). -/
def scalarSlice (scalar : MachineWord) (w : Nat) : Nat := scalar.toNat % 2 ^ w

/-- The source's loop: for each of the `steps` half-words of v, from limb i on, store the low
half-word and shift v right by one half-word (40_construction.md R104). -/
def halfWordLoop (steps i v : Nat) (tmp : Value) : Value :=
  match steps with
  | 0 => tmp
  | k + 1 => halfWordLoop k (i + 1) (v >>> 32) (tmp.set i (BitVec.ofNat 32 v))

/-- The source's form of LDU's result (40_construction.md R104). -/
def lduSourceForm (L w v : Nat) : Value :=
  if w > 32 then halfWordLoop (w / 32) 0 v (zeroValue L)
  else (zeroValue L).set 0 (BitVec.ofNat 32 v)

/-! ### The string and the byte buffer in BUF -/

/-- BUF[0..n-1], as one read of each byte in the present step (20_memory.md R67; log entry 4). -/
def State.bufPrefix (s : State) (n : Nat) : List Byte := (List.range n).map s.readBuf

/-- The number that a sequence of digits spells in a base, most significant first:
`sum of d(j) * base^(n-1-j)` (40_construction.md R106, R109). -/
def positional (base : Nat) (ds : List Nat) : Nat :=
  match ds with
  | [] => 0
  | d :: rest => d * base ^ rest.length + positional base rest

/-- The character is '0' to '9', 0x30 to 0x39 (40_construction.md R105). -/
def isDigit (b : Byte) : Bool := decide (0x30 ≤ b.toNat) && decide (b.toNat ≤ 0x39)

/-- `d(j) <- BUF[j] - 0x30` (40_construction.md R105). -/
def digitValues (str : List Byte) : List Nat := str.map (fun b => b.toNat - 0x30)

/-- The big-endian number of a byte buffer (40_construction.md R109). -/
def bytesNumber (bs : List Byte) : Nat := positional 256 (bs.map BitVec.toNat)

/-! ### Hexadecimal text -/

/-- FN[0] of TOHEX: 1 is uppercase (30_encoding.md R78). -/
def isUpper (fn : BitVec 8) : Bool := fn.getLsbD 0

/-- `hexchar` (43_serialization.md R151). -/
def hexChar (nib : Nat) (upper : Bool) : Byte :=
  if nib < 10 then BitVec.ofNat 8 (0x30 + nib)
  else if upper then BitVec.ofNat 8 (0x41 + (nib - 10))
  else BitVec.ofNat 8 (0x61 + (nib - 10))

/-- One limb as 8 hex digits, most significant first: digit q is `(a >> (4 * (7 - q))) & 0xF`
(43_serialization.md R150). -/
def hexLimb (x : Limb) (upper : Bool) : List Byte :=
  (List.range 8).map (fun q => hexChar ((x.toNat >>> (4 * (7 - q))) &&& 0xF) upper)

/-- The whole string, limb 0 first (43_serialization.md R150, R152). -/
def hexString (a : Value) (upper : Bool) : List Byte := a.flatMap (fun x => hexLimb x upper)

end Sys2Proof.Machine
end

