-- ==== Sys2Proof/Machine/Flags.lean ====
section
/-! DEFINITION. Machine/Flags.lean: the flags the commands compute (STATUS.CMP, STATUS.MOVF) and the
CFG, CTRL and STATUS words the host reads and writes. -/

namespace Sys2Proof.Machine

open Sys2Proof.Config

/-- `lexcmp`: the order of the first differing limb, from limb 0 (41_ordering.md R121). -/
def lexcmp (a b : Value) : CmpResult :=
  match a, b with
  | x :: as, y :: bs =>
    if x.toNat < y.toNat then .lt else if x.toNat > y.toNat then .gt else lexcmp as bs
  | _, _ => .eq

/-- MOVF: the exact product of the operands is at least 2^N (42_arithmetic.md R137). -/
def productOverflows (L : Nat) (a b : Value) : Bool := decide (val a * val b ≥ 2 ^ (32 * L))

/-- The code of a CMP result (10_state.md R33). -/
def cmpCode (c : CmpResult) : BitVec 2 :=
  match c with
  | .eq => 0b00#2
  | .lt => 0b01#2
  | .gt => 0b10#2

/-- The code of an error (60_exceptions.md R160). -/
def errCode (e : ErrCode) : BitVec 4 :=
  match e with
  | .none => 0#4
  | .illegal => 1#4
  | .unimpl => 2#4
  | .busy => 3#4
  | .size => 4#4
  | .digit => 5#4
  | .overflow => 6#4

/-- CFG = `{8'd16, 8'd32, N[15:0]}` (10_state.md R27). -/
def cfgWord (p : Params) : Word := 16#8 ++ 32#8 ++ BitVec.ofNat 16 (32 * p.width.limbs)

/-- CTRL as read: bits 31:2 read 0 (10_state.md R28). -/
def State.ctrlWord (s : State) : Word := 0#30 ++ BitVec.ofBool s.errIe ++ BitVec.ofBool s.doneIe

/-- A host write of CTRL, at any time; bits 31:2 are ignored (10_state.md R28). -/
def State.writeCtrl (s : State) (v : Word) : State :=
  { s with doneIe := v.getLsbD 0, errIe := v.getLsbD 1 }

/-- STATUS with given MOVF and CMP fields and the current BUSY, DONE and ERR (10_state.md R29). -/
def State.statusWith (s : State) (movf : Bool) (cmp : BitVec 2) : Word :=
  0#20 ++ errCode s.err ++ 0#2 ++ cmp ++ 0#1 ++ BitVec.ofBool movf ++ BitVec.ofBool s.done
    ++ BitVec.ofBool s.busy

/-- STATUS as read: while BUSY = 1, MOVF and CMP are unspecified (10_state.md R29, 20_memory.md
R63). -/
def State.statusWord (s : State) : Word :=
  if s.busy then s.statusWith (s.freeWord.getLsbD 2) (s.freeWord.extractLsb' 4 2)
  else s.statusWith s.movf (cmpCode s.cmp)

/-- A host write of STATUS: `if v[1] = 1 then DONE <- 0; if v[31] = 1 then ERR <- 0`, in this order;
all other bits are ignored (10_state.md R35). -/
def State.writeStatus (s : State) (v : Word) : State :=
  let s1 := if v.getLsbD 1 then s.clearDone else s
  if v.getLsbD 31 then s1.clearErr else s1

end Sys2Proof.Machine
end

