-- ==== Sys2Proof/Machine/Bus.lean ====
section
/-! DEFINITION. Machine/Bus.lean: the host's accesses to the register space (20_memory.md). -/

namespace Sys2Proof.Machine

open Sys2Proof.Config

/-- What an offset of the register space names (20_memory.md R51). -/
inductive Port where
  | cfg
  | ctrl
  | status
  | cmd
  | len
  | scalarLo
  | scalarHi
  /-- Word k of the BUF window. -/
  | bufWord (k : Nat)
  /-- Word i of register r in the value window. -/
  | limb (r : Reg) (i : Nat)
  | reserved
deriving DecidableEq, Repr

/-- The address map (20_memory.md R51, R53 to R55), for an aligned offset below 0x800. -/
def portOf (off : Nat) : Port :=
  if off < 0x100 then
    if off = 0x000 then .cfg
    else if off = 0x004 then .ctrl
    else if off = 0x008 then .status
    else if off = 0x00C then .cmd
    else if off = 0x010 then .len
    else if off = 0x018 then .scalarLo
    else if off = 0x01C then .scalarHi
    else .reserved
  else if off < 0x200 then .bufWord ((off - 0x100) / 4)
  else if off < 0x400 then .reserved
  else .limb (Fin.ofNat 16 ((off - 0x400) / 0x40)) ((off - 0x400) % 0x40 / 4)

/-- `{BUF[4k+3], BUF[4k+2], BUF[4k+1], BUF[4k]}` (20_memory.md R54). -/
def State.bufWindowWord (s : State) (k : Nat) : Word :=
  s.readBuf (4 * k + 3) ++ s.readBuf (4 * k + 2) ++ s.readBuf (4 * k + 1) ++ s.readBuf (4 * k)

/-- `BUF[4k+j] <- v[8j+7:8j]` for j = 0..3 (20_memory.md R54). -/
def State.writeBufWord (s : State) (k : Nat) (v : Word) : State :=
  { s with
    buf := Memory.writeList s.buf (4 * k)
      [v.extractLsb' 0 8, v.extractLsb' 8 8, v.extractLsb' 16 8, v.extractLsb' 24 8] }

/-- A word of the value window: V[r][i] when i < L, else 0 (20_memory.md R55). -/
def State.valueWindowWord (s : State) (r : Reg) (i : Nat) : Word :=
  if i < s.limbs then limbAt (s.getV r) i else 0#32

/-- What a read of a port returns; a read that the spec calls unspecified while BUSY = 1 returns a
free value (10_state.md R27 to R38, 20_memory.md R53 to R55, R63). -/
def State.readPort (s : State) (p : Port) : Word :=
  match p with
  | .cfg => cfgWord s.params
  | .ctrl => s.ctrlWord
  | .status => s.statusWord
  | .cmd => 0#32
  | .len => if s.busy then s.freeWord else s.len.setWidth 32
  | .scalarLo => s.scalar.extractLsb' 0 32
  | .scalarHi => s.scalar.extractLsb' 32 32
  | .bufWord k => if s.busy then s.freeWord else s.bufWindowWord k
  | .limb r i => if s.busy then s.freeWord else s.valueWindowWord r i
  | .reserved => 0#32

/-- What a write of a port does (10_state.md R27 to R38, 20_memory.md R53 to R55, R63). -/
def State.writePort (s : State) (p : Port) (v : Word) : State :=
  match p with
  | .cfg => s
  | .ctrl => s.writeCtrl v
  | .status => s.writeStatus v
  | .cmd => s.issue v
  | .len => s.whenIdle { s with len := v.extractLsb' 0 16 }
  | .scalarLo => s.whenIdle { s with scalar := s.scalar.extractLsb' 32 32 ++ v }
  | .scalarHi => s.whenIdle { s with scalar := v ++ s.scalar.extractLsb' 0 32 }
  | .bufWord k => s.whenIdle (s.writeBufWord k v)
  | .limb _ _ => s
  | .reserved => s

/-- The address is in the block's 2 KiB register space (20_memory.md R50). -/
def inRegisterSpace (p : Params) (addr : Nat) : Bool :=
  decide (p.fwiBase ≤ addr) && decide (addr < p.fwiBase + 0x800)

/-- The access is 32 bits wide at an offset that is a multiple of 4 (20_memory.md R52). -/
def isWordAccess (p : Params) (addr bytes : Nat) : Bool :=
  decide (bytes = 4) && decide ((addr - p.fwiBase) % 4 = 0)

/-- One access of the host, performed completely (20_memory.md R52, R60). An access of another width
or alignment gets the bus error answer and has no other effect; one outside the register space
does not reach the block. -/
def hostAccess (a : Access) (s : State) : Host.Outcome State Fault Refusal :=
  match a with
  | .read addr bytes =>
    if inRegisterSpace s.params addr then
      if isWordAccess s.params addr bytes then
        .next { s with response := .data (s.readPort (portOf (addr - s.params.fwiBase))) }
      else .next { s with response := .readError s.freeWord }
    else .fault .outsideRegisterSpace
  | .write addr bytes v =>
    if inRegisterSpace s.params addr then
      if isWordAccess s.params addr bytes then
        .next { s.writePort (portOf (addr - s.params.fwiBase)) v with response := .written }
      else .next { s with response := .writeError }
    else .fault .outsideRegisterSpace

end Sys2Proof.Machine
end

