-- ==== Sys2Proof/Machine/Datapath.lean ====
section
/-! DEFINITION. Machine/Datapath.lean: the multi-limb datapaths: adder, complement, sign flip,
multiplier (42_arithmetic.md) and decimal conversion (40_construction.md). Intermediates are exact
numbers; where the spec bounds one below 2^64, a 64-bit intermediate holds the same number
(log entry 12). -/

namespace Sys2Proof.Machine

open Sys2Proof.Config

/-- The ripple-carry adder: `sum = a[i] + b[i] + carry`, the stored limb is `sum mod 2^32`, the new
carry `sum >> 32`, from limb 0 up; the last carry is dropped (42_arithmetic.md R134). With
`carry = 1` it is the loop of R132 and R136. -/
def rippleAdd (a b : Value) (carry : Nat) : Value :=
  match a, b with
  | x :: as, y :: bs =>
    BitVec.ofNat 32 (x.toNat + y.toNat + carry)
      :: rippleAdd as bs ((x.toNat + y.toNat + carry) >>> 32)
  | _, _ => []

/-- `a[i] XOR 0xFFFFFFFF` for every limb (42_arithmetic.md R132). -/
def complement (a : Value) : Value := a.map (fun x => x ^^^ 0xFFFFFFFF#32)

/-- The narrow sign flip: limb L-1 XOR 0x80000000 (42_arithmetic.md R131). -/
def flipSign (L : Nat) (a : Value) : Value := a.modify (L - 1) (fun x => x ^^^ 0x80000000#32)

/-- Two's-complement negation: complement of each limb, plus one (42_arithmetic.md R132). -/
def negateTc (L : Nat) (a : Value) : Value := rippleAdd (complement a) (zeroValue L) 1

/-- True subtraction: `a[i] + (b[i] XOR 0xFFFFFFFF) + carry` from carry 1 (42_arithmetic.md R136). -/
def subtractTc (a b : Value) : Value := rippleAdd a (complement b) 1

/-! ### The schoolbook multiplier -/

/-- One step of the inner loop of `mul_propagate` on (tmp, carry) (42_arithmetic.md R138). -/
def mulStepPropagate (af : Limb) (b : Value) (f : Nat) (st : Value × Nat) (s : Nat) : Value × Nat :=
  let t := (limbAt st.1 (f + s)).toNat + af.toNat * (limbAt b s).toNat + st.2
  (st.1.set (f + s) (BitVec.ofNat 32 t), t >>> 32)

/-- One pass of the outer loop of `mul_propagate`: s from 0 to L-1-f, from carry 0; the last carry is
dropped (42_arithmetic.md R138). -/
def mulPassPropagate (L : Nat) (a b : Value) (tmp : Value) (f : Nat) : Value :=
  ((List.range (L - f)).foldl (mulStepPropagate (limbAt a f) b f) (tmp, 0)).1

/-- `mul_propagate` (42_arithmetic.md R138). -/
def mulPropagate (L : Nat) (a b : Value) : Value :=
  (List.range L).foldl (mulPassPropagate L a b) (zeroValue L)

/-- One step of the inner loop of `mul_drop` on (tmp, carry): the carry out of the accumulation is
lost, and a term with f+s >= L is discarded (42_arithmetic.md R139). -/
def mulStepDrop (L : Nat) (af : Limb) (b : Value) (f : Nat) (st : Value × Nat) (s : Nat) :
    Value × Nat :=
  let p := af.toNat * (limbAt b s).toNat + st.2
  let tmp :=
    if f + s < L then
      st.1.set (f + s) (BitVec.ofNat 32 ((limbAt st.1 (f + s)).toNat + p % 2 ^ 32))
    else st.1
  (tmp, p >>> 32)

/-- One pass of the outer loop of `mul_drop`: s from 0 to L-1, from carry 0 (42_arithmetic.md R139). -/
def mulPassDrop (L : Nat) (a b : Value) (tmp : Value) (f : Nat) : Value :=
  ((List.range L).foldl (mulStepDrop L (limbAt a f) b f) (tmp, 0)).1

/-- `mul_drop` (42_arithmetic.md R139). -/
def mulDrop (L : Nat) (a b : Value) : Value :=
  (List.range L).foldl (mulPassDrop L a b) (zeroValue L)

/-- The product limbs that MUL writes, per MUL_CARRY (42_arithmetic.md R137). -/
def mulResult (mode : MulCarry) (L : Nat) (a b : Value) : Value :=
  match mode with
  | .propagate => mulPropagate L a b
  | .drop => mulDrop L a b

/-! ### Decimal conversion -/

/-- DEC_MODE = exact: the number the digits spell, `none` (E_OVERFLOW) when it is 2^N or more
(40_construction.md R106). -/
def decimalExact (L : Nat) (ds : List Nat) : Option Value :=
  if positional 10 ds ≥ 2 ^ (32 * L) then none else some (limbsOf L (positional 10 ds))

/-- The loop of DEC_MODE = source over the digits from the least significant on: acc and mult are
64-bit and wrap; a flush past limb L-1 is E_OVERFLOW (40_construction.md R107). -/
def decimalSourceLoop (L : Nat) (ds : List Nat) (tmp : Value) (acc mult : MachineWord) (k : Nat) :
    Option Value :=
  match ds with
  | [] =>
    if acc = 0#64 then some tmp
    else if k ≥ L then none
    else some (tmp.set k (acc.setWidth 32))
  | d :: rest =>
    let acc' := acc + BitVec.ofNat 64 d * mult
    let mult' := mult * 10#64
    if acc'.toNat ≥ 2 ^ 32 - 1 then
      if k ≥ L then none
      else decimalSourceLoop L rest (tmp.set k (acc'.setWidth 32)) (acc' >>> 32) 1#64 (k + 1)
    else decimalSourceLoop L rest tmp acc' mult' k

/-- DEC_MODE = source: the source's steps, digits from the rightmost to the leftmost
(40_construction.md R107). -/
def decimalSource (L : Nat) (ds : List Nat) : Option Value :=
  decimalSourceLoop L ds.reverse (zeroValue L) 0#64 1#64 0

/-- The conversion LDDEC performs, per DEC_MODE (40_construction.md R105). -/
def decimalResult (mode : DecMode) (L : Nat) (ds : List Nat) : Option Value :=
  match mode with
  | .exact => decimalExact L ds
  | .source => decimalSource L ds

end Sys2Proof.Machine
end

