-- ==== Sys2Proof/Machine/Arithmetic.lean ====
section
/-! DEFINITION. Machine/Arithmetic.lean: NEG, NEGTC, ADD, SUB, SUBTC, MUL (42_arithmetic.md). -/

namespace Sys2Proof.Machine

/-- NEG: the narrow sign flip of V[RD] (42_arithmetic.md R131). -/
def execNeg (rd : Reg) (s : State) : Host.Outcome State Fault Refusal :=
  complete (s.setV rd (flipSign s.limbs (s.getV rd)))

/-- NEGTC: two's-complement negation of V[RD] (42_arithmetic.md R132). -/
def execNegtc (rd : Reg) (s : State) : Host.Outcome State Fault Refusal :=
  complete (s.setV rd (negateTc s.limbs (s.getV rd)))

/-- ADD: `V[RD] <- (V[RD] + V[RS]) mod 2^N` by the ripple-carry adder (42_arithmetic.md R133, R134). -/
def execAdd (rd rs : Reg) (s : State) : Host.Outcome State Fault Refusal :=
  complete (s.setV rd (rippleAdd (s.getV rd) (s.getV rs) 0))

/-- SUB: the argument's sign bit is flipped in place; then V[RD], read after that write, and the
flipped argument are added (42_arithmetic.md R135). -/
def execSub (rd rs : Reg) (s : State) : Host.Outcome State Fault Refusal :=
  let s1 := s.setV rs (flipSign s.limbs (s.getV rs))
  complete (s1.setV rd (rippleAdd (s1.getV rd) (s1.getV rs) 0))

/-- SUBTC: `V[RD] <- (V[RD] - V[RS]) mod 2^N`; V[RS] is not written (42_arithmetic.md R136). -/
def execSubtc (rd rs : Reg) (s : State) : Host.Outcome State Fault Refusal :=
  complete (s.setV rd (subtractTc (s.getV rd) (s.getV rs)))

/-- MUL: the product per MUL_CARRY, and MOVF from the exact product (42_arithmetic.md R137). -/
def execMul (rd rs : Reg) (s : State) : Host.Outcome State Fault Refusal :=
  complete
    { s.setV rd (mulResult s.params.mulCarry s.limbs (s.getV rd) (s.getV rs)) with
      movf := productOverflows s.limbs (s.getV rd) (s.getV rs) }

end Sys2Proof.Machine
end

