-- ==== Sys2Proof/Machine/Construction.lean ====
section
/-! DEFINITION. Machine/Construction.lean: CLR, MOV, LDU, LDDEC, LDBYTES, LDHEX
(40_construction.md). -/

namespace Sys2Proof.Machine

/-- CLR: `V[RD] <- 0` (40_construction.md R101). -/
def execClr (rd : Reg) (s : State) : Host.Outcome State Fault Refusal :=
  complete (s.setV rd (zeroValue s.limbs))

/-- MOV: `tmp <- V[RS]; V[RD] <- tmp` (40_construction.md R102). -/
def execMov (rd rs : Reg) (s : State) : Host.Outcome State Fault Refusal :=
  complete (s.setV rd (s.getV rs))

/-- LDU: `V[RD] <- zext_N(SCALAR[w-1:0])` (40_construction.md R103). -/
def execLdu (rd : Reg) (fn : BitVec 8) (s : State) : Host.Outcome State Fault Refusal :=
  complete (s.setV rd (limbsOf s.limbs (scalarSlice s.scalar (lduWidth fn))))

/-- LDDEC: the LEN check, then the check of every character, then the conversion
(40_construction.md R105 to R107, 60_exceptions.md R169). -/
def execLddec (rd : Reg) (s : State) : Host.Outcome State Fault Refusal :=
  if s.len.toNat > Config.bufBytes then raiseErr .size s
  else if (s.bufPrefix s.len.toNat).all isDigit then
    match decimalResult s.params.decMode s.limbs (digitValues (s.bufPrefix s.len.toNat)) with
    | some x => complete (s.setV rd x)
    | none => raiseErr .overflow s
  else raiseErr .digit s

/-- LDBYTES: the big-endian number in BUF[0..LEN-1], E_SIZE when LEN > N/8 = 4*L
(40_construction.md R109). -/
def execLdbytes (rd : Reg) (s : State) : Host.Outcome State Fault Refusal :=
  if s.len.toNat > 4 * s.limbs then raiseErr .size s
  else complete (s.setV rd (limbsOf s.limbs (bytesNumber (s.bufPrefix s.len.toNat))))

/-- LDHEX: `raise E_UNIMPL` (40_construction.md R110, 60_exceptions.md R162). RD is not used. -/
def execLdhex (_rd : Reg) (s : State) : Host.Outcome State Fault Refusal :=
  raiseErr .unimpl s

end Sys2Proof.Machine
end

