-- ==== Sys2Proof/Machine/Ordering.lean ====
section
/-! DEFINITION. Machine/Ordering.lean: CMP (41_ordering.md). -/

namespace Sys2Proof.Machine

/-- CMP: `STATUS.CMP <- lexcmp(V[RD], V[RS])` (41_ordering.md R120). -/
def execCmp (rd rs : Reg) (s : State) : Host.Outcome State Fault Refusal :=
  complete { s with cmp := lexcmp (s.getV rd) (s.getV rs) }

end Sys2Proof.Machine
end

