-- ==== Sys2Proof/Machine/Serialization.lean ====
section
/-! DEFINITION. Machine/Serialization.lean: TOHEX (43_serialization.md). -/

namespace Sys2Proof.Machine

/-- TOHEX: the hex string of V[RS] to BUF[0..N/4-1], and `LEN <- N/4` = 8*L
(43_serialization.md R150 to R152). -/
def execTohex (rs : Reg) (fn : BitVec 8) (s : State) : Host.Outcome State Fault Refusal :=
  complete
    { s with
      buf := Memory.writeList s.buf 0 (hexString (s.getV rs) (isUpper fn))
      len := BitVec.ofNat 16 (8 * s.limbs) }

end Sys2Proof.Machine
end

