-- ==== Sys2Proof/Machine/Dispatch.lean ====
section
/-! DEFINITION. Machine/Dispatch.lean: one arm per command (30_encoding.md R84: "execute the rule of
opc"). -/

namespace Sys2Proof.Machine

def exec (i : Instr) (s : State) : Host.Outcome State Fault Refusal :=
  match i with
  | .clr rd => Sys2Proof.Machine.execClr rd s
  | .mov rd rs => Sys2Proof.Machine.execMov rd rs s
  | .ldu rd fn => Sys2Proof.Machine.execLdu rd fn s
  | .lddec rd => Sys2Proof.Machine.execLddec rd s
  | .ldbytes rd => Sys2Proof.Machine.execLdbytes rd s
  | .ldhex rd => Sys2Proof.Machine.execLdhex rd s
  | .cmp rd rs => Sys2Proof.Machine.execCmp rd rs s
  | .neg rd => Sys2Proof.Machine.execNeg rd s
  | .negtc rd => Sys2Proof.Machine.execNegtc rd s
  | .add rd rs => Sys2Proof.Machine.execAdd rd rs s
  | .sub rd rs => Sys2Proof.Machine.execSub rd rs s
  | .subtc rd rs => Sys2Proof.Machine.execSubtc rd rs s
  | .mul rd rs => Sys2Proof.Machine.execMul rd rs s
  | .tohex rs fn => Sys2Proof.Machine.execTohex rs fn s

end Sys2Proof.Machine
end

