-- ==== Sys2Proof/Machine/Unit.lean ====
section
/-! DEFINITION. Machine/Unit.lean: what a turn does: the unit runs the command in flight, the host
makes an access, the block is reset. -/

namespace Sys2Proof.Machine

/-- `decode_and_execute(c)`: an illegal word raises E_ILLEGAL before anything is read or written
(30_encoding.md R84, 60_exceptions.md R161). -/
def runCommand (c : Word) (s : State) : Host.Outcome State Fault Refusal :=
  match decode c with
  | .ok i => exec i s
  | .error _ => raiseErr .illegal s

/-- The unit's turn: the command in flight runs to its end in one step (20_memory.md R61); an idle
unit does nothing. -/
def unitTurn (s : State) : Host.Outcome State Fault Refusal :=
  match s.inFlight with
  | some c => runCommand c s
  | none => .next s

/-- The host's access falls in the step in which the command in flight ends: the access comes first,
so a W1C of DONE leaves DONE at 1 (10_state.md R31; log entry 9). A command that this very access
issues is not ended by it. -/
def hostAndUnitTurn (a : Access) (s : State) : Host.Outcome State Fault Refusal :=
  match hostAccess a s with
  | .next s1 => if s.busy then unitTurn s1 else .next s1
  | .fault f => .fault f
  | .refused r => .refused r

/-- One turn of the total order (20_memory.md R62). -/
def takeTurn (t : Turn) (s : State) : Host.Outcome State Fault Refusal :=
  match t with
  | .host a => hostAccess a s
  | .unit => unitTurn s
  | .hostAndUnit a => hostAndUnitTurn a s
  | .reset => .next s.blockReset

/-- The next turn of the schedule, and the schedule without it; when the schedule is empty the unit
moves, so a command in flight always ends (70_reset_and_hazards.md R194; log entry 1). -/
def nextTurn (s : State) : Turn × State :=
  match s.schedule with
  | [] => (.unit, s)
  | t :: rest => (t, { s with schedule := rest })

/-- After a step the next one draws new free values (log entry 5). -/
def afterStep (o : Host.Outcome State Fault Refusal) : Host.Outcome State Fault Refusal :=
  match o with
  | .next s => .next s.tick
  | .fault f => .fault f
  | .refused r => .refused r

/-- The state with the command word `c` in flight and the unit's turn next: the very next step
decodes and executes `c` (log entry 3). -/
def State.withCommandInFlight (s : State) (c : Word) : State :=
  { s with inFlight := some c, schedule := .unit :: s.schedule }

end Sys2Proof.Machine
end

