-- ==== Sys2Proof/Machine/Step.lean ====
section
/-! DEFINITION. Machine/Step.lean: one step of the machine, and the state in which a given word is
the next command to run. -/

namespace Sys2Proof.Machine

/-- One step: the next turn of the total order of host accesses, command completions and resets
(20_memory.md R62). -/
def step (s : State) : Host.Outcome State Fault Refusal :=
  afterStep (takeTurn (nextTurn s).1 (nextTurn s).2)

/-- The state in which the instruction `w` of `nbits` bits is the accepted command (10_state.md R36)
and the unit moves next. -/
def State.withFetchWord (s : State) (nbits w : Nat) : State :=
  s.withCommandInFlight (BitVec.ofNat 32 (w % 2 ^ nbits))

end Sys2Proof.Machine
end

