-- ==== Sys2Proof/Machine/Asm.lean ====
section
/-! DEFINITION. Machine/Asm.lean: the command lines of 30_encoding.md R85 as text (a list of
characters): writing one and reading one. Log entry 14 says what R85 leaves open. -/

namespace Sys2Proof.Machine

/-- The mnemonic, in lower case (30_encoding.md R85). -/
def mnemonicText (o : Operation) : List Char :=
  match o with
  | .clr => ['c', 'l', 'r']
  | .mov => ['m', 'o', 'v']
  | .ldu => ['l', 'd', 'u']
  | .lddec => ['l', 'd', 'd', 'e', 'c']
  | .ldbytes => ['l', 'd', 'b', 'y', 't', 'e', 's']
  | .ldhex => ['l', 'd', 'h', 'e', 'x']
  | .cmp => ['c', 'm', 'p']
  | .neg => ['n', 'e', 'g']
  | .negtc => ['n', 'e', 'g', 't', 'c']
  | .add => ['a', 'd', 'd']
  | .sub => ['s', 'u', 'b']
  | .subtc => ['s', 'u', 'b', 't', 'c']
  | .mul => ['m', 'u', 'l']
  | .tohex => ['t', 'o', 'h', 'e', 'x']

/-- The decimal digit of a number below 10. -/
def digitText (d : Nat) : Char := Char.ofNat (0x30 + d)

/-- `v0` to `v15` (30_encoding.md R85). -/
def regText (r : Reg) : List Char :=
  if r.val < 10 then ['v', digitText r.val] else ['v', '1', digitText (r.val - 10)]

/-- LDU's W operand: 8, 16, 32 or 64 for FN = 0 to 3 (30_encoding.md R77, R85). -/
def widthText (fn : BitVec 8) : List Char :=
  if fn = 0#8 then ['8']
  else if fn = 1#8 then ['1', '6']
  else if fn = 2#8 then ['3', '2']
  else ['6', '4']

/-- TOHEX's case operand: `lower` for FN = 0, `upper` for FN = 1 (30_encoding.md R78, R85). -/
def caseText (fn : BitVec 8) : List Char :=
  if fn = 0#8 then ['l', 'o', 'w', 'e', 'r'] else ['u', 'p', 'p', 'e', 'r']

/-- `mnem A`. -/
def oneOperand (o : Operation) (a : List Char) : List Char := mnemonicText o ++ [' '] ++ a

/-- `mnem A, B`. -/
def twoOperands (o : Operation) (a b : List Char) : List Char := oneOperand o a ++ [',', ' '] ++ b

/-- The command line of a command (30_encoding.md R85). -/
def asmText (i : Instr) : List Char :=
  match i with
  | .clr rd => oneOperand .clr (regText rd)
  | .mov rd rs => twoOperands .mov (regText rd) (regText rs)
  | .ldu rd fn => twoOperands .ldu (regText rd) (widthText fn)
  | .lddec rd => oneOperand .lddec (regText rd)
  | .ldbytes rd => oneOperand .ldbytes (regText rd)
  | .ldhex rd => oneOperand .ldhex (regText rd)
  | .cmp rd rs => twoOperands .cmp (regText rd) (regText rs)
  | .neg rd => oneOperand .neg (regText rd)
  | .negtc rd => oneOperand .negtc (regText rd)
  | .add rd rs => twoOperands .add (regText rd) (regText rs)
  | .sub rd rs => twoOperands .sub (regText rd) (regText rs)
  | .subtc rd rs => twoOperands .subtc (regText rd) (regText rs)
  | .mul rd rs => twoOperands .mul (regText rd) (regText rs)
  | .tohex rs fn => twoOperands .tohex (regText rs) (caseText fn)

/-- A space or a tab. -/
def isBlank (c : Char) : Bool := c == ' ' || c == '\t'

/-- Text without blanks at either end. -/
def trimText (t : List Char) : List Char :=
  ((t.dropWhile isBlank).reverse.dropWhile isBlank).reverse

/-- "`;` starts a comment" (30_encoding.md R85). -/
def withoutComment (t : List Char) : List Char := t.takeWhile (fun c => c != ';')

/-- "operands separated by commas" (30_encoding.md R85). -/
def splitCommas (t : List Char) : List (List Char) :=
  match t with
  | [] => [[]]
  | c :: rest =>
    if c == ',' then [] :: splitCommas rest
    else
      match splitCommas rest with
      | [] => [[c]]
      | w :: ws => (c :: w) :: ws

/-- The value of a digit in a base up to 16. -/
def digitOf (base : Nat) (c : Char) : Option Nat :=
  let d :=
    if 0x30 ≤ c.toNat ∧ c.toNat ≤ 0x39 then c.toNat - 0x30
    else if 0x61 ≤ c.toNat ∧ c.toNat ≤ 0x66 then c.toNat - 0x61 + 10
    else if 0x41 ≤ c.toNat ∧ c.toNat ≤ 0x46 then c.toNat - 0x41 + 10
    else base
  if d < base then some d else none

/-- Digits in a base, appended to the number `acc`. -/
def readDigits (base acc : Nat) (t : List Char) : Option Nat :=
  match t with
  | [] => some acc
  | c :: rest =>
    match digitOf base c with
    | some d => readDigits base (acc * base + d) rest
    | none => none

/-- "Numbers are decimal or `0x` hex" (30_encoding.md R85). -/
def readNumber (t : List Char) : Option Nat :=
  match t with
  | [] => none
  | '0' :: 'x' :: c :: rest => readDigits 16 0 (c :: rest)
  | c :: rest => readDigits 10 0 (c :: rest)

/-- A register name. -/
def readReg (t : List Char) : Option Reg := (List.finRange 16).find? (fun r => regText r == t)

/-- LDU's W operand, "one of 8, 16, 32, 64" (30_encoding.md R85). -/
def readWidth (t : List Char) : Option (BitVec 8) :=
  match readNumber t with
  | some n =>
    if n = 8 then some 0#8
    else if n = 16 then some 1#8
    else if n = 32 then some 2#8
    else if n = 64 then some 3#8
    else none
  | none => none

/-- TOHEX's case operand. -/
def readCase (t : List Char) : Option (BitVec 8) :=
  if t = ['l', 'o', 'w', 'e', 'r'] then some 0#8
  else if t = ['u', 'p', 'p', 'e', 'r'] then some 1#8
  else none

/-- A shape D command (30_encoding.md R85). -/
def readD (f : Reg → Instr) (args : List (List Char)) : Option Instr :=
  match args with
  | [a] => (readReg a).map f
  | _ => none

/-- A shape DS command (30_encoding.md R85). -/
def readDS (f : Reg → Reg → Instr) (args : List (List Char)) : Option Instr :=
  match args with
  | [a, b] =>
    match readReg a, readReg b with
    | some d, some s => some (f d s)
    | _, _ => none
  | _ => none

/-- A command with a register and a modifier: shapes DZ and SC (30_encoding.md R85). -/
def readFn (f : Reg → BitVec 8 → Instr) (modifier : List Char → Option (BitVec 8))
    (args : List (List Char)) : Option Instr :=
  match args with
  | [a, b] =>
    match readReg a, modifier b with
    | some r, some m => some (f r m)
    | _, _ => none
  | _ => none

/-- The command of an operation and its operand texts (30_encoding.md R85). -/
def readOperands (o : Operation) (args : List (List Char)) : Option Instr :=
  match o with
  | .clr => readD .clr args
  | .mov => readDS .mov args
  | .ldu => readFn .ldu readWidth args
  | .lddec => readD .lddec args
  | .ldbytes => readD .ldbytes args
  | .ldhex => readD .ldhex args
  | .cmp => readDS .cmp args
  | .neg => readD .neg args
  | .negtc => readD .negtc args
  | .add => readDS .add args
  | .sub => readDS .sub args
  | .subtc => readDS .subtc args
  | .mul => readDS .mul args
  | .tohex => readFn .tohex readCase args

/-- A command line, read (30_encoding.md R85). -/
def readLine (line : List Char) : Option Instr :=
  let t := trimText (withoutComment line)
  let m := t.takeWhile (fun c => !isBlank c)
  let args := (splitCommas (t.dropWhile (fun c => !isBlank c))).map trimText
  match allOperations.find? (fun o => mnemonicText o == m) with
  | some o => readOperands o args
  | none => none

/-- The word of a command line (30_encoding.md R85). -/
def assemble (line : List Char) : Option Word := (readLine line).map encode

end Sys2Proof.Machine
end

