-- ==== Sys2Proof/Machine/HostOps.lean ====
section
/-! DEFINITION. Machine/HostOps.lean: the host operations and pseudo-instructions of a program, as the
turns they put into the schedule (30_encoding.md R86, R87). Host control flow on what was read is
the host's own and is not here (R82). -/

namespace Sys2Proof.Machine

open Sys2Proof.Config

/-- `wr OFF, X` is `MemWrite(FWI_BASE + OFF, 4, X)` (30_encoding.md R86). -/
def hostWr (p : Params) (off : Nat) (x : Word) : Turn := .host (.write (p.fwiBase + off) 4 x)

/-- `rd OFF` is `MemRead(FWI_BASE + OFF, 4)` (30_encoding.md R86). -/
def hostRd (p : Params) (off : Nat) : Turn := .host (.read (p.fwiBase + off) 4)

/-- `poll`: `rd 0x008` until BUSY is 0. `n` reads still find the command in flight, then it ends, and
one more read finds BUSY = 0 (30_encoding.md R86; log entry 15). -/
def hostPoll (p : Params) (n : Nat) : List Turn :=
  List.replicate n (hostRd p 0x008) ++ [.unit, hostRd p 0x008]

/-- A command line: `wr 0x00C, <its word>` then `poll` (30_encoding.md R86). -/
def hostCommand (p : Params) (n : Nat) (i : Instr) : List Turn :=
  hostWr p 0x00C (encode i) :: hostPoll p n

/-- `li vD, X` (30_encoding.md R87). -/
def hostLi (p : Params) (n : Nat) (d : Reg) (x : MachineWord) : List Turn :=
  [hostWr p 0x018 (x.extractLsb' 0 32), hostWr p 0x01C (x.extractLsb' 32 32)]
    ++ hostCommand p n (.ldu d 3#8)

/-- Byte j of the string or byte list; "bytes past n are 0x00" (30_encoding.md R87). -/
def byteOr0 (bs : List Byte) (j : Nat) : Byte := bs.getD j 0#8

/-- `wr 0x100+4k, {c[4k+3], c[4k+2], c[4k+1], c[4k]}` for k in 0..ceil(n/4)-1 (30_encoding.md R87). -/
def hostBufWrites (p : Params) (bs : List Byte) : List Turn :=
  (List.range ((bs.length + 3) / 4)).map (fun k =>
    hostWr p (0x100 + 4 * k)
      (byteOr0 bs (4 * k + 3) ++ byteOr0 bs (4 * k + 2) ++ byteOr0 bs (4 * k + 1)
        ++ byteOr0 bs (4 * k)))

/-- `lds vD, "d...d"` for a string of at most 256 characters (30_encoding.md R87). -/
def hostLds (p : Params) (n : Nat) (d : Reg) (str : List Byte) : List Turn :=
  hostBufWrites p str ++ [hostWr p 0x010 (BitVec.ofNat 32 str.length)]
    ++ hostCommand p n (.lddec d)

/-- `ldb vD, b0 b1 ...` for at most 256 bytes (30_encoding.md R87). -/
def hostLdb (p : Params) (n : Nat) (d : Reg) (bs : List Byte) : List Turn :=
  hostBufWrites p bs ++ [hostWr p 0x010 (BitVec.ofNat 32 bs.length)]
    ++ hostCommand p n (.ldbytes d)

/-- `clrerr` is `wr 0x008, 0x80000000` (30_encoding.md R87). -/
def hostClrerr (p : Params) : List Turn := [hostWr p 0x008 0x80000000#32]

/-- `clrdone` is `wr 0x008, 0x00000002` (30_encoding.md R87). -/
def hostClrdone (p : Params) : List Turn := [hostWr p 0x008 0x00000002#32]

/-- `rdv vS`: `rd 0x400+0x40*S+4*i` for i in 0..L-1 (30_encoding.md R87). -/
def hostRdv (p : Params) (r : Reg) : List Turn :=
  (List.range p.width.limbs).map (fun i => hostRd p (0x400 + 0x40 * r.val + 4 * i))

end Sys2Proof.Machine
end

