-- ==== Sys2Proof/Safety.lean ====
section
/-! DEFINITION. Safety.lean: the invariant of the machine's states, and what a safe step and a
trustworthy result are, in the terms the statements use. -/

namespace Sys2Proof.Machine

/-- The state keeps its form: every value register holds exactly L limbs (10_state.md R21 to R23),
and BUF is in canonical form inside its 256 bytes (R26). -/
abbrev State.wf (s : State) : Prop :=
  (∀ r : Reg, (s.getV r).length = s.limbs) ∧ Memory.wf s.buf = true

/-- The host stays inside the register space on the given turn (20_memory.md R50). -/
def Turn.inside (p : Config.Params) (t : Turn) : Bool :=
  match t with
  | .host (.read addr _) => inRegisterSpace p addr
  | .host (.write addr _ _) => inRegisterSpace p addr
  | .unit => true
  | .hostAndUnit (.read addr _) => inRegisterSpace p addr
  | .hostAndUnit (.write addr _ _) => inRegisterSpace p addr
  | .reset => true

/-- A step is safe: the machine goes on. -/
def SafeStep (s : State) : Prop := ∃ t, step s = .next t

/-- The results of the commands so far may be trusted: no error is recorded and none is running
(70_reset_and_hazards.md R185, R190). -/
def Trustworthy (s : State) : Prop := s.busy = false ∧ s.err = .none

end Sys2Proof.Machine
end

