-- ==== Sys2Proof/Certificates/Slice0/Obligations.lean ====
section
/-! DEFINITION. Certificates/Slice0/Obligations.lean: the statements about the FWI unit, and the few
words they are written in. -/

open Sys2Proof Sys2Proof.Machine Sys2Proof.Config

namespace Sys2Proof.Claims

/-- The word `{8'h00, FN, RS, RD, OPC}` of 30_encoding.md R85, from its field values. -/
def cmdWord (opc rd rs fn : Nat) : Word :=
  BitVec.ofNat 32 (opc + 2 ^ 8 * rd + 2 ^ 12 * rs + 2 ^ 16 * fn)

/-- One row of the opcode map of 30_encoding.md R79: mask, match, and the command with its RD, RS
and FN. -/
structure MapRow where
  mask  : Word
  value : Word
  instr : Reg → Reg → BitVec 8 → Instr

/-- The opcode map as 30_encoding.md R79 prints it. -/
def opcodeMap : List MapRow :=
  [⟨0xFFFFF0FF#32, 0x00000001#32, fun d _ _ => .clr d⟩,
   ⟨0xFFFF00FF#32, 0x00000002#32, fun d s _ => .mov d s⟩,
   ⟨0xFFFCF0FF#32, 0x00000003#32, fun d _ n => .ldu d n⟩,
   ⟨0xFFFFF0FF#32, 0x00000004#32, fun d _ _ => .lddec d⟩,
   ⟨0xFFFFF0FF#32, 0x00000005#32, fun d _ _ => .ldbytes d⟩,
   ⟨0xFFFFF0FF#32, 0x00000006#32, fun d _ _ => .ldhex d⟩,
   ⟨0xFFFF00FF#32, 0x00000008#32, fun d s _ => .cmp d s⟩,
   ⟨0xFFFFF0FF#32, 0x00000010#32, fun d _ _ => .neg d⟩,
   ⟨0xFFFFF0FF#32, 0x00000011#32, fun d _ _ => .negtc d⟩,
   ⟨0xFFFF00FF#32, 0x00000012#32, fun d s _ => .add d s⟩,
   ⟨0xFFFF00FF#32, 0x00000013#32, fun d s _ => .sub d s⟩,
   ⟨0xFFFF00FF#32, 0x00000014#32, fun d s _ => .subtc d s⟩,
   ⟨0xFFFF00FF#32, 0x00000015#32, fun d s _ => .mul d s⟩,
   ⟨0xFFFE0FFF#32, 0x00000018#32, fun _ s n => .tohex s n⟩]

/-- Bits 11:8 of a number (30_encoding.md R70). -/
def bits11to8 (c : Word) : Reg := Fin.ofNat 16 (c.toNat / 2 ^ 8)

/-- Bits 15:12. -/
def bits15to12 (c : Word) : Reg := Fin.ofNat 16 (c.toNat / 2 ^ 12)

/-- Bits 23:16. -/
def bits23to16 (c : Word) : BitVec 8 := BitVec.ofNat 8 (c.toNat / 2 ^ 16)

/-- A word that no row of the opcode map matches: an illegal word (30_encoding.md R80). -/
def illegalWord (c : Word) : Prop := ∀ row ∈ opcodeMap, c &&& row.mask ≠ row.value

/-- The state in which the command in flight has ended with only V written. -/
def endsWith (s : State) (v : Vector Value 16) : State :=
  { s with v := v, inFlight := none, done := true }

/-- The state after `raise E_X` (60_exceptions.md R167). -/
def raised (s : State) (e : ErrCode) : State :=
  { s with err := if s.err = .none then e else s.err, inFlight := none, done := true }

/-- The state after a host write that only recorded E_BUSY (60_exceptions.md R163). -/
def rejectedBusy (s : State) : State :=
  { s with err := if s.err = .none then .busy else s.err, response := .written }

/-- The number that BUF[0..n-1] spells in a base, through the digit value `d` of each byte:
the sum of d(BUF[j]) * base^(n-1-j). -/
def spelled (s : State) (base : Nat) (d : Byte → Nat) (n : Nat) : Nat :=
  ∑ j ∈ Finset.range n, d (s.readBuf j) * base ^ (n - 1 - j)

/-- Every character of BUF[0..LEN-1] is '0' to '9'. -/
def allDigits (s : State) : Prop :=
  ∀ j < s.len.toNat, 0x30 ≤ (s.readBuf j).toNat ∧ (s.readBuf j).toNat ≤ 0x39

/-- The number of the decimal string in BUF[0..LEN-1]. -/
def decimalValue (s : State) : Nat := spelled s 10 (fun b => b.toNat - 0x30) s.len.toNat

/-- The loop of 40_construction.md R107 in plain numbers, over the digits still to come (the rightmost
first): `flushed` holds tmp[0..k-1], so k is its length. `none` is E_OVERFLOW. -/
def sourceSteps (L : Nat) (ds flushed : List Nat) (acc mult : Nat) : Option (List Nat) :=
  match ds with
  | [] =>
    if acc = 0 then some flushed
    else if L ≤ flushed.length then none
    else some (flushed ++ [acc])
  | d :: rest =>
    if (acc + d * mult) % 2 ^ 64 < 2 ^ 32 - 1 then
      sourceSteps L rest flushed ((acc + d * mult) % 2 ^ 64) (mult * 10 % 2 ^ 64)
    else if L ≤ flushed.length then none
    else
      sourceSteps L rest (flushed ++ [(acc + d * mult) % 2 ^ 64 % 2 ^ 32])
        ((acc + d * mult) % 2 ^ 64 / 2 ^ 32) 1

/-- The digit values of BUF[0..LEN-1], the rightmost first (40_construction.md R107: "from
least-significant (rightmost) to most-significant"). -/
def digitsFromTheRight (s : State) : List Nat :=
  (List.range s.len.toNat).map (fun j => (s.readBuf (s.len.toNat - 1 - j)).toNat - 0x30)

/-- The registers a command writes when it completes (10_state.md R24). -/
def writtenRegs (i : Instr) : List Reg :=
  match i with
  | .clr d => [d]
  | .mov d _ => [d]
  | .ldu d _ => [d]
  | .lddec d => [d]
  | .ldbytes d => [d]
  | .ldhex _ => []
  | .cmp _ _ => []
  | .neg d => [d]
  | .negtc d => [d]
  | .add d _ => [d]
  | .sub d r => [d, r]
  | .subtc d _ => [d]
  | .mul d _ => [d]
  | .tohex _ _ => []

/-- Every byte of BUF reads as before: the listed byte, or unwritten as before. -/
def sameBytes (s t : State) : Prop := ∀ a, Memory.read t.buf a = Memory.read s.buf a

/-- CTRL, SCALAR and everything no command writes is as before. -/
def sameInterface (s t : State) : Prop :=
  t.params = s.params ∧ t.doneIe = s.doneIe ∧ t.errIe = s.errIe ∧ t.scalar = s.scalar ∧
  t.response = s.response ∧ t.schedule = s.schedule ∧ t.draws = s.draws

/-- What a command's results are made of: V, BUF, LEN, MOVF, CMP (and SCALAR, which no command
writes) are as before. -/
def sameResults (s t : State) : Prop :=
  t.v = s.v ∧ t.buf = s.buf ∧ t.len = s.len ∧ t.scalar = s.scalar ∧ t.movf = s.movf ∧ t.cmp = s.cmp

/-- The host's aligned 32-bit read at an offset of the register space. -/
def rd (s : State) (off : Nat) : Access := .read (s.params.fwiBase + off) 4

/-- The host's aligned 32-bit write at an offset of the register space. -/
def wr (s : State) (off : Nat) (v : Word) : Access := .write (s.params.fwiBase + off) 4 v

/-- The state after a read that answered `v`, and nothing else. -/
def answered (s : State) (v : Word) : State := { s with response := .data v }

/-- The codes of 60_exceptions.md R160. -/
def errNumber (e : ErrCode) : Nat :=
  match e with
  | .none => 0
  | .illegal => 1
  | .unimpl => 2
  | .busy => 3
  | .size => 4
  | .digit => 5
  | .overflow => 6

/-- The codes of 10_state.md R33: equal, less, greater. -/
def cmpNumber (c : CmpResult) : Nat :=
  match c with
  | .eq => 0
  | .lt => 1
  | .gt => 2

/-- The offset is in a reserved range of the map (20_memory.md R53). -/
def reservedOffset (off : Nat) : Prop :=
  off = 0x014 ∨ (0x020 ≤ off ∧ off ≤ 0x0FF) ∨ (0x200 ≤ off ∧ off ≤ 0x3FF)

end Sys2Proof.Claims

open Sys2Proof.Claims

/-! ### Encoding -/

/-- 30_encoding.md R70, R76, R79, R85: no bit of an encoding is dropped. -/
def Obligations.DecodeEncodeRoundTrip : Prop :=
  ∀ i : Instr, i.wellFormed = true → decode (encode i) = .ok i

/-- 30_encoding.md R75, R76, R80: a word that decodes is the word of a legal command. -/
def Obligations.EncodeDecodeRoundTrip : Prop :=
  ∀ (c : Word) (i : Instr), decode c = .ok i → i.wellFormed = true ∧ encode i = c

/-- 30_encoding.md R79: the decoder is the opcode map, row by row, and nothing else decodes. -/
def Obligations.DecoderIsTheOpcodeMap : Prop :=
  (∀ row ∈ opcodeMap, ∀ c : Word, c &&& row.mask = row.value →
    decode c = .ok (row.instr (bits11to8 c) (bits15to12 c) (bits23to16 c))) ∧
  (∀ c : Word, illegalWord c → ∃ e, decode c = .error e)

/-- 30_encoding.md R80, 60_exceptions.md R161: an illegal word raises E_ILLEGAL and has no other
effect. -/
def Obligations.IllegalWordRaisesIllegal : Prop :=
  ∀ (c : Word) (s : State), illegalWord c → runCommand c s = .next (raised s .illegal)

/-- Words written out in 30_encoding.md R85 and in the examples of the command rules. -/
def Obligations.WrittenWordsDecode : Prop :=
  decode 0x00000310#32 = .ok (.neg 3) ∧ decode 0x00002112#32 = .ok (.add 1 2) ∧
  decode 0x00030003#32 = .ok (.ldu 0 3#8) ∧ decode 0x00015018#32 = .ok (.tohex 5 1#8) ∧
  decode 0x00000201#32 = .ok (.clr 2) ∧ decode 0x00002108#32 = .ok (.cmp 1 2) ∧
  decode 0x00000105#32 = .ok (.ldbytes 1) ∧ decode 0x00000006#32 = .ok (.ldhex 0)

/-- 30_encoding.md R85: the text of every legal command is read as that command. -/
def Obligations.AssemblerReadsWhatItWrites : Prop :=
  ∀ i : Instr, i.wellFormed = true →
    readLine (asmText i) = some i ∧ assemble (asmText i) = some (encode i)

/-! ### The step -/

/-- 30_encoding.md R84: when the unit moves, with a decodable word in flight, the step is `exec` of
that command; what the step adds is the turn taken off the schedule and the next draw number. The state made by `withFetchWord` runs its word so. -/
def Obligations.StepRunsTheDecodedCommand : Prop :=
  ∀ (s t : State) (c : Word) (i : Instr), s.inFlight = some c → decode c = .ok i →
    (s.schedule = [] → exec i s = .next t → step s = .next { t with draws := t.draws + 1 }) ∧
    (∀ rest, s.schedule = .unit :: rest → exec i { s with schedule := rest } = .next t →
      step s = .next { t with draws := t.draws + 1 }) ∧
    (∀ w, decodeTableWord 32 w = some i →
      exec i { s with inFlight := some (BitVec.ofNat 32 w) } = .next t →
      step (s.withFetchWord 32 w) = .next { t with draws := t.draws + 1 })

/-! ### Construction -/

/-- 40_construction.md R101. -/
def Obligations.ClrWritesZero : Prop :=
  ∀ (d : Reg) (s : State),
    decode (cmdWord 0x01 d 0 0) = .ok (.clr d) ∧
    exec (.clr d) s = .next (endsWith s (s.v.set d (List.replicate s.limbs 0#32)))

/-- 40_construction.md R102. -/
def Obligations.MovCopies : Prop :=
  ∀ (d r : Reg) (s : State),
    decode (cmdWord 0x02 d r 0) = .ok (.mov d r) ∧
    exec (.mov d r) s = .next (endsWith s (s.v.set d (s.getV r))) ∧
    (endsWith s (s.v.set d (s.getV r))).getV r = s.getV r

/-- 40_construction.md R103, with the size code of 30_encoding.md R77. -/
def Obligations.LduLoadsTheLowBitsOfScalar : Prop :=
  ∀ (d : Reg) (k : Nat) (s : State),
    (k < 4 →
      decode (cmdWord 0x03 d 0 k) = .ok (.ldu d (BitVec.ofNat 8 k)) ∧
      ∃ x : Value, exec (.ldu d (BitVec.ofNat 8 k)) s = .next (endsWith s (s.v.set d x)) ∧
        x.length = s.limbs ∧ val x = s.scalar.toNat % 2 ^ (8 * 2 ^ k) ∧
        ∀ i < s.limbs,
          (limbAt x i).toNat = (s.scalar.toNat % 2 ^ (8 * 2 ^ k)) / 2 ^ (32 * i) % 2 ^ 32) ∧
    (4 ≤ k → k < 256 → runCommand (cmdWord 0x03 d 0 k) s = .next (raised s .illegal))

/-- 40_construction.md R104: the source's half-word loop writes the same limbs as R103. -/
def Obligations.LduSourceLoopWritesTheSameLimbs : Prop :=
  ∀ (L w v : Nat), 3 ≤ L → w = 8 ∨ w = 16 ∨ w = 32 ∨ w = 64 → v < 2 ^ w →
    lduSourceForm L w v = limbsOf L v

/-- 40_construction.md R106: DEC_MODE = exact. -/
def Obligations.LddecExactValueOrOverflow : Prop :=
  ∀ (d : Reg) (s : State), s.params.decMode = .exact → s.len.toNat ≤ 256 → allDigits s →
    decode (cmdWord 0x04 d 0 0) = .ok (.lddec d) ∧
    (decimalValue s < 2 ^ (32 * s.limbs) →
      ∃ x : Value, exec (.lddec d) s = .next (endsWith s (s.v.set d x)) ∧
        x.length = s.limbs ∧ val x = decimalValue s) ∧
    (2 ^ (32 * s.limbs) ≤ decimalValue s → exec (.lddec d) s = .next (raised s .overflow))

/-- 60_exceptions.md R164, R165, in the order of R169: the size check, then the characters. -/
def Obligations.BufferChecksRaiseSizeThenDigit : Prop :=
  ∀ (d : Reg) (s : State),
    (256 < s.len.toNat → exec (.lddec d) s = .next (raised s .size)) ∧
    (s.len.toNat ≤ 256 → ¬ allDigits s → exec (.lddec d) s = .next (raised s .digit)) ∧
    (4 * s.limbs < s.len.toNat → exec (.ldbytes d) s = .next (raised s .size))

/-- 40_construction.md R107: DEC_MODE = source runs the source's steps, and "For every string whose
value x is at most 2^32 - 1 the result equals rule R106's." -/
def Obligations.LddecSourceFollowsTheSteps : Prop :=
  ∀ (d : Reg) (s : State), s.params.decMode = .source → s.len.toNat ≤ 256 → allDigits s →
    (sourceSteps s.limbs (digitsFromTheRight s) [] 0 1 = none →
      exec (.lddec d) s = .next (raised s .overflow)) ∧
    (∀ ws, sourceSteps s.limbs (digitsFromTheRight s) [] 0 1 = some ws →
      ∃ x : Value, exec (.lddec d) s = .next (endsWith s (s.v.set d x)) ∧
        x.length = s.limbs ∧ ∀ i < s.limbs, (limbAt x i).toNat = ws.getD i 0) ∧
    (decimalValue s ≤ 2 ^ 32 - 1 →
      ∃ x : Value, exec (.lddec d) s = .next (endsWith s (s.v.set d x)) ∧
        x.length = s.limbs ∧ val x = decimalValue s)

/-- 40_construction.md R106, R107: leading zeros do not change the result, in either mode. -/
def Obligations.LeadingZerosDoNotMatter : Prop :=
  ∀ (m : DecMode) (L z : Nat) (ds : List Nat),
    decimalResult m L (List.replicate z 0 ++ ds) = decimalResult m L ds

/-- 40_construction.md R109. -/
def Obligations.LdbytesReadsBigEndian : Prop :=
  ∀ (d : Reg) (s : State),
    decode (cmdWord 0x05 d 0 0) = .ok (.ldbytes d) ∧
    (s.len.toNat ≤ 4 * s.limbs →
      ∃ x : Value, exec (.ldbytes d) s = .next (endsWith s (s.v.set d x)) ∧
        x.length = s.limbs ∧ val x = spelled s 256 BitVec.toNat s.len.toNat ∧
        ∀ t < 4 * s.limbs, val x / 256 ^ t % 256 =
          if t < s.len.toNat then (s.readBuf (s.len.toNat - 1 - t)).toNat else 0) ∧
    (4 * s.limbs < s.len.toNat → exec (.ldbytes d) s = .next (raised s .size))

/-- 30_encoding.md R81, 40_construction.md R110, 60_exceptions.md R162: LDHEX is a legal command
whose own effect is to raise E_UNIMPL. -/
def Obligations.LdhexRaisesUnimplemented : Prop :=
  ∀ (d : Reg) (s : State),
    decode (cmdWord 0x06 d 0 0) = .ok (.ldhex d) ∧
    exec (.ldhex d) s = .next (raised s .unimpl)

/-! ### Ordering -/

/-- 41_ordering.md R120, R121. -/
def Obligations.CmpIsTheFirstDifferingLimb : Prop :=
  ∀ (d r : Reg) (s : State), s.wf →
    decode (cmdWord 0x08 d r 0) = .ok (.cmp d r) ∧
    ∃ c : CmpResult,
      exec (.cmp d r) s = .next { s with cmp := c, inFlight := none, done := true } ∧
      (c = .lt ↔ ∃ i < s.limbs, (∀ j < i, limbAt (s.getV d) j = limbAt (s.getV r) j) ∧
        (limbAt (s.getV d) i).toNat < (limbAt (s.getV r) i).toNat) ∧
      (c = .gt ↔ ∃ i < s.limbs, (∀ j < i, limbAt (s.getV d) j = limbAt (s.getV r) j) ∧
        (limbAt (s.getV r) i).toNat < (limbAt (s.getV d) i).toNat) ∧
      (c = .eq ↔ val (s.getV d) = val (s.getV r))

/-- 41_ordering.md R122: the structural order and the order of the values agree when exactly one
limb differs. -/
def Obligations.CmpAgreesWithValuesOnOneLimb : Prop :=
  ∀ (d r : Reg) (s t : State) (k : Nat), s.wf → k < s.limbs →
    (∀ j < s.limbs, limbAt (s.getV d) j = limbAt (s.getV r) j ↔ j ≠ k) →
    exec (.cmp d r) s = .next t →
    (t.cmp = .lt ↔ val (s.getV d) < val (s.getV r)) ∧
    (t.cmp = .gt ↔ val (s.getV r) < val (s.getV d))

/-! ### Arithmetic -/

/-- 42_arithmetic.md R131. -/
def Obligations.NegFlipsTheTopBit : Prop :=
  ∀ (d : Reg) (s : State), s.wf →
    decode (cmdWord 0x10 d 0 0) = .ok (.neg d) ∧
    ∃ x : Value, exec (.neg d) s = .next (endsWith s (s.v.set d x)) ∧ x.length = s.limbs ∧
      (∀ i < s.limbs - 1, limbAt x i = limbAt (s.getV d) i) ∧
      limbAt x (s.limbs - 1) = limbAt (s.getV d) (s.limbs - 1) ^^^ 0x80000000#32 ∧
      val x = val (s.getV d) ^^^ 2 ^ (32 * s.limbs - 1) ∧
      val x = (val (s.getV d) + 2 ^ (32 * s.limbs - 1)) % 2 ^ (32 * s.limbs) ∧
      (val x = (2 ^ (32 * s.limbs) - val (s.getV d)) % 2 ^ (32 * s.limbs) ↔
        val (s.getV d) = 2 ^ (32 * s.limbs - 2) ∨ val (s.getV d) = 3 * 2 ^ (32 * s.limbs - 2))

/-- 42_arithmetic.md R132. -/
def Obligations.NegtcNegatesModulo : Prop :=
  ∀ (d : Reg) (s : State), s.wf →
    decode (cmdWord 0x11 d 0 0) = .ok (.negtc d) ∧
    ∃ x : Value, exec (.negtc d) s = .next (endsWith s (s.v.set d x)) ∧ x.length = s.limbs ∧
      val x = (2 ^ (32 * s.limbs) - val (s.getV d)) % 2 ^ (32 * s.limbs)

/-- 42_arithmetic.md R133, and the carry chain of R134. -/
def Obligations.AddIsTheRippleCarrySum : Prop :=
  ∀ (d r : Reg) (s : State), s.wf →
    decode (cmdWord 0x12 d r 0) = .ok (.add d r) ∧
    ∃ (x : Value) (carry : Nat → Nat),
      exec (.add d r) s = .next (endsWith s (s.v.set d x)) ∧ x.length = s.limbs ∧
      val x = (val (s.getV d) + val (s.getV r)) % 2 ^ (32 * s.limbs) ∧
      carry 0 = 0 ∧
      ∀ i < s.limbs,
        (limbAt x i).toNat =
          ((limbAt (s.getV d) i).toNat + (limbAt (s.getV r) i).toNat + carry i) % 2 ^ 32 ∧
        carry (i + 1) =
          ((limbAt (s.getV d) i).toNat + (limbAt (s.getV r) i).toNat + carry i) / 2 ^ 32 ∧
        carry (i + 1) ≤ 1

/-- 42_arithmetic.md R135: the argument is destroyed, and V[RD] is read after that write. -/
def Obligations.SubFlipsItsArgumentAndAdds : Prop :=
  ∀ (d r : Reg) (s : State), s.wf →
    decode (cmdWord 0x13 d r 0) = .ok (.sub d r) ∧
    ∃ b x : Value, exec (.sub d r) s = .next (endsWith s ((s.v.set r b).set d x)) ∧
      b.length = s.limbs ∧ x.length = s.limbs ∧
      val b = val (s.getV r) ^^^ 2 ^ (32 * s.limbs - 1) ∧
      (d ≠ r → val x = (val (s.getV d) + val b) % 2 ^ (32 * s.limbs) ∧
        val x = (val (s.getV d) + val (s.getV r) + 2 ^ (32 * s.limbs - 1)) % 2 ^ (32 * s.limbs) ∧
        ((val x : Int) = ((val (s.getV d) : Int) - val (s.getV r)) % 2 ^ (32 * s.limbs) ↔
          val (s.getV r) = 2 ^ (32 * s.limbs - 2) ∨
          val (s.getV r) = 3 * 2 ^ (32 * s.limbs - 2))) ∧
      (d = r → val x = (val b + val b) % 2 ^ (32 * s.limbs) ∧
        val x = 2 * val (s.getV d) % 2 ^ (32 * s.limbs))

/-- 42_arithmetic.md R136. -/
def Obligations.SubtcSubtractsModulo : Prop :=
  ∀ (d r : Reg) (s : State), s.wf →
    decode (cmdWord 0x14 d r 0) = .ok (.subtc d r) ∧
    ∃ x : Value, exec (.subtc d r) s = .next (endsWith s (s.v.set d x)) ∧ x.length = s.limbs ∧
      (val x : Int) = ((val (s.getV d) : Int) - val (s.getV r)) % 2 ^ (32 * s.limbs)

/-- 42_arithmetic.md R137, R138: the schoolbook multiplier with propagated carries computes the
product modulo 2^N, and MOVF reports the exact product. -/
def Obligations.MulPropagateIsTheProduct : Prop :=
  ∀ (d r : Reg) (s : State), s.wf → s.params.mulCarry = .propagate →
    decode (cmdWord 0x15 d r 0) = .ok (.mul d r) ∧
    ∃ x : Value,
      exec (.mul d r) s = .next { endsWith s (s.v.set d x) with
        movf := decide (2 ^ (32 * s.limbs) ≤ val (s.getV d) * val (s.getV r)) } ∧
      x.length = s.limbs ∧
      val x = val (s.getV d) * val (s.getV r) % 2 ^ (32 * s.limbs)

/-- 42_arithmetic.md R139: limb k of the result is the sum modulo 2^32 of the low halves of the
partial products of column k; row f contributes half-word k-f of a[f] * b. The carries out of these
sums are lost. MOVF is as in the other mode (R137). -/
def Obligations.MulDropSumsColumnsWithoutCarry : Prop :=
  ∀ (d r : Reg) (s : State), s.wf → s.params.mulCarry = .drop →
    ∃ x : Value,
      exec (.mul d r) s = .next { endsWith s (s.v.set d x) with
        movf := decide (2 ^ (32 * s.limbs) ≤ val (s.getV d) * val (s.getV r)) } ∧
      x.length = s.limbs ∧
      ∀ k < s.limbs, (limbAt x k).toNat =
        (∑ f ∈ Finset.range (k + 1),
          (limbAt (s.getV d) f).toNat * val (s.getV r) / 2 ^ (32 * (k - f)) % 2 ^ 32) % 2 ^ 32

/-- 42_arithmetic.md R137: `a * 0 = 0` and `a * 1 = a` in both modes. -/
def Obligations.MulByZeroAndOneInBothModes : Prop :=
  ∀ (d r : Reg) (s t : State), s.wf → exec (.mul d r) s = .next t →
    (val (s.getV r) = 0 → t.getV d = List.replicate s.limbs 0#32) ∧
    (val (s.getV r) = 1 → t.getV d = s.getV d)

/-- 70_reset_and_hazards.md R195: the same register as source and destination. -/
def Obligations.SameRegisterResults : Prop :=
  ∀ (d : Reg) (s : State), s.wf →
    (∃ t, exec (.mov d d) s = .next t ∧ t.getV d = s.getV d) ∧
    (∃ t, exec (.cmp d d) s = .next t ∧ t.cmp = .eq) ∧
    (∃ t, exec (.add d d) s = .next t ∧
      val (t.getV d) = 2 * val (s.getV d) % 2 ^ (32 * s.limbs)) ∧
    (∃ t, exec (.sub d d) s = .next t ∧
      val (t.getV d) = 2 * val (s.getV d) % 2 ^ (32 * s.limbs)) ∧
    (∃ t, exec (.subtc d d) s = .next t ∧ val (t.getV d) = 0) ∧
    (∃ t, exec (.mul d d) s = .next t ∧ (s.params.mulCarry = .propagate →
      val (t.getV d) = val (s.getV d) * val (s.getV d) % 2 ^ (32 * s.limbs)))

/-- 42_arithmetic.md R140, with the signed reading of 00_scope.md R14: ADD and SUBTC are right for
signed values too. -/
def Obligations.SignedReadingOfAddAndSubtc : Prop :=
  ∀ (d r : Reg) (s t u : State), s.wf → exec (.add d r) s = .next t →
    exec (.subtc d r) s = .next u →
    (signedVal (t.getV d) - (signedVal (s.getV d) + signedVal (s.getV r))) % 2 ^ (32 * s.limbs) = 0 ∧
    (signedVal (u.getV d) - (signedVal (s.getV d) - signedVal (s.getV r))) % 2 ^ (32 * s.limbs) = 0 ∧
    -(2 : Int) ^ (32 * s.limbs - 1) ≤ signedVal (t.getV d) ∧
    signedVal (t.getV d) < (2 : Int) ^ (32 * s.limbs - 1)

/-! ### Serialization -/

/-- 43_serialization.md R150, R151: the digits, where they go, LEN, and nothing else. -/
def Obligations.TohexWritesTheDigits : Prop :=
  ∀ (d r : Reg) (k : Nat) (s : State), s.wf → k < 256 →
    (d ≠ 0 ∨ 2 ≤ k → runCommand (cmdWord 0x18 d r k) s = .next (raised s .illegal)) ∧
    (k < 2 → decode (cmdWord 0x18 0 r k) = .ok (.tohex r (BitVec.ofNat 8 k)) ∧
    ∃ buf : Memory,
      exec (.tohex r (BitVec.ofNat 8 k)) s =
        .next { s with buf := buf, len := BitVec.ofNat 16 (32 * s.limbs / 4), inFlight := none,
                       done := true } ∧
      (∀ i < s.limbs, ∀ q < 8, ∀ nib,
        nib = (limbAt (s.getV r) i).toNat / 2 ^ (4 * (7 - q)) % 16 →
        Memory.read buf (8 * i + q) = some (BitVec.ofNat 8
          (if nib < 10 then 0x30 + nib
           else if k = 0 then 0x61 + (nib - 10) else 0x41 + (nib - 10)))) ∧
      (∀ a, 32 * s.limbs / 4 ≤ a → Memory.read buf a = Memory.read s.buf a))

/-! ### Frames -/

/-- 10_state.md R24, 20_memory.md R67, 42_arithmetic.md R130: CLR, MOV, LDU, NEG, NEGTC, ADD and
SUBTC change V[RD], BUSY and DONE, and nothing else; they store to no byte of BUF. -/
def Obligations.OneRegisterCommandsFrame : Prop :=
  ∀ (d r : Reg) (fn : BitVec 8) (s t : State) (i : Instr),
    i ∈ [.clr d, .mov d r, .ldu d fn, .neg d, .negtc d, .add d r, .subtc d r] →
    exec i s = .next t →
    (∀ q, q ≠ d → t.getV q = s.getV q) ∧ sameBytes s t ∧ t.len = s.len ∧ t.movf = s.movf ∧
    t.cmp = s.cmp ∧ t.err = s.err ∧ sameInterface s t

/-- 40_construction.md R100, 20_memory.md R67: LDDEC, LDBYTES and LDHEX change V[RD], BUSY, DONE and
ERR, and nothing else; a command that changes ERR leaves V[RD] as it was. -/
def Obligations.BufferCommandsFrame : Prop :=
  ∀ (d : Reg) (s t : State) (i : Instr), i ∈ [.lddec d, .ldbytes d, .ldhex d] →
    exec i s = .next t →
    (∀ q, q ≠ d → t.getV q = s.getV q) ∧ sameBytes s t ∧ t.len = s.len ∧ t.movf = s.movf ∧
    t.cmp = s.cmp ∧ (t.err = s.err ∨ (s.err = .none ∧ t.getV d = s.getV d)) ∧ sameInterface s t

/-- 42_arithmetic.md R135, R137, 41_ordering.md R120: SUB changes V[RD] and V[RS]; MUL V[RD] and
MOVF; CMP only STATUS.CMP; besides BUSY and DONE. None of them stores to BUF. -/
def Obligations.SubMulCmpFrame : Prop :=
  ∀ (d r : Reg) (s t : State),
    (exec (.sub d r) s = .next t →
      (∀ q, q ≠ d → q ≠ r → t.getV q = s.getV q) ∧ sameBytes s t ∧ t.len = s.len ∧
      t.movf = s.movf ∧ t.cmp = s.cmp ∧ t.err = s.err ∧ sameInterface s t) ∧
    (exec (.mul d r) s = .next t →
      (∀ q, q ≠ d → t.getV q = s.getV q) ∧ sameBytes s t ∧ t.len = s.len ∧
      t.cmp = s.cmp ∧ t.err = s.err ∧ sameInterface s t) ∧
    (exec (.cmp d r) s = .next t →
      (∀ q, t.getV q = s.getV q) ∧ sameBytes s t ∧ t.len = s.len ∧
      t.movf = s.movf ∧ t.err = s.err ∧ sameInterface s t)

/-- 43_serialization.md R150: TOHEX changes BUF[0..N/4-1], LEN, BUSY and DONE, and nothing else. -/
def Obligations.TohexFrame : Prop :=
  ∀ (r : Reg) (fn : BitVec 8) (s t : State), s.wf → exec (.tohex r fn) s = .next t →
    (∀ q, t.getV q = s.getV q) ∧
    (∀ a, ¬ a < 32 * s.limbs / 4 → Memory.read t.buf a = Memory.read s.buf a) ∧
    t.movf = s.movf ∧ t.cmp = s.cmp ∧ t.err = s.err ∧ sameInterface s t

/-! ### Rules about every command -/

/-- 10_state.md R30, R31, 70_reset_and_hazards.md R194 (93 U14): every command word, legal or not and
whatever the state, ends with BUSY = 0 and DONE = 1; with no host turn before it the one in flight
ends in one step. -/
def Obligations.EveryCommandEndsIdleAndDone : Prop :=
  (∀ (c : Word) (s : State), ∃ t, runCommand c s = .next t ∧ t.busy = false ∧ t.done = true) ∧
  (∀ s : State, s.busy = true → s.schedule = [] ∨ s.schedule.head? = some .unit →
    ∃ t, step s = .next t ∧ t.busy = false ∧ t.done = true)

/-- 60_exceptions.md R167: a command that raises an error makes none of its writes. -/
def Obligations.FailedCommandWritesNothing : Prop :=
  ∀ (c : Word) (s t : State), runCommand c s = .next t → t.err ≠ s.err →
    s.err = .none ∧ t.err ≠ .none ∧ t.err ≠ .busy ∧ t = raised s t.err

/-- 10_state.md R34, 60_exceptions.md R173: a second error while ERR is not 0 changes nothing; no
command clears ERR. -/
def Obligations.FirstErrorWins : Prop :=
  ∀ (c : Word) (s t : State) (a : Access), s.err ≠ .none →
    (runCommand c s = .next t → t.err = s.err) ∧
    (hostAccess a s = .next t →
      (∀ v, a ≠ wr s 0x008 v ∨ v.getLsbD 31 = false) → t.err = s.err)

/-- 10_state.md R32. -/
def Obligations.MovfIsWrittenOnlyByMul : Prop :=
  ∀ (i : Instr) (s t : State), exec i s = .next t →
    (∀ d r, i = .mul d r →
      t.movf = decide (val (s.getV d) * val (s.getV r) ≥ 2 ^ (32 * s.limbs))) ∧
    ((∀ d r, i ≠ .mul d r) → t.movf = s.movf)

/-- 10_state.md R33. -/
def Obligations.CmpFieldIsWrittenOnlyByCmp : Prop :=
  (∀ (i : Instr) (s t : State), exec i s = .next t → (∀ d r, i ≠ .cmp d r) → t.cmp = s.cmp) ∧
  (∀ (a : Access) (s t : State), hostAccess a s = .next t → t.cmp = s.cmp) ∧
  (∀ s : State, s.busy = false →
    (s.statusWord.extractLsb' 4 2 = 0b00#2 ↔ s.cmp = .eq) ∧
    (s.statusWord.extractLsb' 4 2 = 0b01#2 ↔ s.cmp = .lt) ∧
    (s.statusWord.extractLsb' 4 2 = 0b10#2 ↔ s.cmp = .gt) ∧
    s.statusWord.extractLsb' 4 2 ≠ 0b11#2)

/-- 10_state.md R24. -/
def Obligations.OnlyTheNamedRegistersAreWritten : Prop :=
  (∀ (i : Instr) (s t : State) (r : Reg), exec i s = .next t → t.getV r ≠ s.getV r →
    r ∈ writtenRegs i ∧ t.err = s.err) ∧
  (∀ (a : Access) (s t : State), hostAccess a s = .next t → t.v = s.v)

/-- 60_exceptions.md R163: the command in flight is not disturbed by what the host does meanwhile. -/
def Obligations.HostCannotDisturbACommand : Prop :=
  ∀ (a : Access) (c : Word) (s t u : State), s.inFlight = some c → hostAccess a s = .next t →
    runCommand c s = .next u →
    t.inFlight = some c ∧ ∃ u', runCommand c t = .next u' ∧ sameResults u u'

/-- 20_memory.md R61: while a command stays in flight the host sees none of its writes. -/
def Obligations.NoWriteIsVisibleBeforeTheEnd : Prop :=
  ∀ s t : State, s.busy = true → step s = .next t → t.busy = true →
    sameResults s t ∧ t.inFlight = s.inFlight

/-! ### The host interface -/

/-- 10_state.md R36. -/
def Obligations.CmdWriteIssuesOrNot : Prop :=
  ∀ (c : Word) (s : State),
    (s.busy = true → hostAccess (wr s 0x00C c) s = .next (rejectedBusy s)) ∧
    (s.busy = false → s.err ≠ .none →
      hostAccess (wr s 0x00C c) s = .next { s with response := .written }) ∧
    (s.busy = false → s.err = .none →
      hostAccess (wr s 0x00C c) s =
        .next { s with inFlight := some c, response := .written } ∧
      unitTurn { s with inFlight := some c, response := .written } =
        runCommand c { s with inFlight := some c, response := .written }) ∧
    hostAccess (rd s 0x00C) s = .next (answered s 0#32)

/-- 10_state.md R35. -/
def Obligations.StatusWriteClearsDoneAndErr : Prop :=
  ∀ (v : Word) (s : State),
    hostAccess (wr s 0x008 v) s =
      .next { s with done := s.done && !v.getLsbD 1
                     err := if v.getLsbD 31 = true then .none else s.err
                     response := .written }

/-- 60_exceptions.md R168, R172: while ERR is not 0 commands are discarded; after ERRCLR the next one
is accepted. -/
def Obligations.CommandsWaitForErrorClear : Prop :=
  ∀ (c : Word) (rest : List Turn) (s : State), s.busy = false → s.err ≠ .none →
    (s.schedule = .host (wr s 0x00C c) :: rest →
      step s = .next { s with response := .written, schedule := rest, draws := s.draws + 1 }) ∧
    (∃ t u, hostAccess (wr s 0x008 0x80000000#32) s = .next t ∧
      hostAccess (wr s 0x00C c) t = .next u ∧
      u = { s with err := .none, inFlight := some c, response := .written })

/-- 60_exceptions.md R163. -/
def Obligations.BusyRejectsDataWrites : Prop :=
  ∀ (off : Nat) (v : Word) (s : State), s.busy = true →
    off = 0x00C ∨ off = 0x010 ∨ off = 0x018 ∨ off = 0x01C ∨
      (0x100 ≤ off ∧ off < 0x200 ∧ off % 4 = 0) →
    hostAccess (wr s off v) s = .next (rejectedBusy s) ∧
    ∀ (c : Word) (u : State), s.inFlight = some c → runCommand c s = .next u →
      ∃ u', runCommand c (rejectedBusy s) = .next u' ∧ sameResults u u' ∧ u'.done = u.done ∧
        u'.inFlight = u.inFlight

/-- 20_memory.md R63 and 10_state.md R27 to R29, R36 to R38: what a host read of each register answers,
while a command is in flight and while none is. The windows of an idle block are
`BufWindowPacksLittleEndian` and `ValueWindowIsReadOnly`. The form of the unspecified answers, the free
value of the step, is the model's (log entry 5). -/
def Obligations.ReadsWhileBusyAndIdle : Prop :=
  ∀ (off : Nat) (s : State), off < 0x800 → off % 4 = 0 →
    ∃ v : Word, hostAccess (rd s off) s = .next (answered s v) ∧
      (off = 0x000 → v = cfgWord s.params) ∧
      (off = 0x004 → v.getLsbD 0 = s.doneIe ∧ v.getLsbD 1 = s.errIe ∧ v.extractLsb' 2 30 = 0#30) ∧
      (off = 0x008 → v.getLsbD 0 = s.busy ∧ v.getLsbD 1 = s.done ∧ v.getLsbD 3 = false ∧
        v.extractLsb' 6 2 = 0#2 ∧ (v.extractLsb' 8 4).toNat = errNumber s.err ∧
        v.extractLsb' 12 20 = 0#20) ∧
      (off = 0x00C ∨ reservedOffset off → v = 0#32) ∧
      (off = 0x018 → v = s.scalar.extractLsb' 0 32) ∧
      (off = 0x01C → v = s.scalar.extractLsb' 32 32) ∧
      (s.busy = false →
        (off = 0x008 → v.getLsbD 2 = s.movf ∧ (v.extractLsb' 4 2).toNat = cmpNumber s.cmp) ∧
        (off = 0x010 → v.extractLsb' 0 16 = s.len ∧ v.extractLsb' 16 16 = 0#16)) ∧
      (s.busy = true →
        (off = 0x008 → v.getLsbD 2 = (freeWord s.draws).getLsbD 2 ∧
          v.extractLsb' 4 2 = (freeWord s.draws).extractLsb' 4 2) ∧
        (off = 0x010 ∨ (0x100 ≤ off ∧ off < 0x200) ∨ 0x400 ≤ off → v = freeWord s.draws))

/-- 20_memory.md R52: an access that is not an aligned 32-bit one has no effect on the block; the
answer is the bus error (its record is the model's, log entry 6). -/
def Obligations.OtherAccessesAreBusErrors : Prop :=
  ∀ (addr bytes : Nat) (v : Word) (s : State),
    s.params.fwiBase ≤ addr → addr < s.params.fwiBase + 0x800 →
    bytes ≠ 4 ∨ (addr - s.params.fwiBase) % 4 ≠ 0 →
    hostAccess (.write addr bytes v) s = .next { s with response := .writeError } ∧
    hostAccess (.read addr bytes) s = .next { s with response := .readError (freeWord s.draws) }

/-- 20_memory.md R53. -/
def Obligations.ReservedSpaceReadsZero : Prop :=
  ∀ (off : Nat) (v : Word) (s : State),
    (reservedOffset off → off % 4 = 0 →
      hostAccess (rd s off) s = .next (answered s 0#32) ∧
      hostAccess (wr s off v) s = .next { s with response := .written }) ∧
    s.ctrlWord.extractLsb' 2 30 = 0#30 ∧
    s.statusWord.getLsbD 3 = false ∧ s.statusWord.extractLsb' 6 2 = 0#2 ∧
    s.statusWord.extractLsb' 12 20 = 0#20 ∧
    hostAccess (wr s 0x004 v) s = hostAccess (wr s 0x004 (v &&& 0x00000003#32)) s ∧
    hostAccess (wr s 0x008 v) s = hostAccess (wr s 0x008 (v &&& 0x80000002#32)) s ∧
    hostAccess (wr s 0x010 v) s = hostAccess (wr s 0x010 (v &&& 0x0000FFFF#32)) s ∧
    (s.busy = false → (s.readPort .len).extractLsb' 16 16 = 0#16)

/-- 20_memory.md R54: little-endian packing; a written word is read back. -/
def Obligations.BufWindowPacksLittleEndian : Prop :=
  ∀ (k : Nat) (v : Word) (s : State), k < 64 → s.busy = false →
    hostAccess (rd s (0x100 + 4 * k)) s = .next (answered s
      (s.readBuf (4 * k + 3) ++ s.readBuf (4 * k + 2) ++ s.readBuf (4 * k + 1)
        ++ s.readBuf (4 * k))) ∧
    ∃ t, hostAccess (wr s (0x100 + 4 * k) v) s = .next t ∧
      t = { s with buf := t.buf, response := .written } ∧
      (∀ j < 4, Memory.read t.buf (4 * k + j) = some (v.extractLsb' (8 * j) 8)) ∧
      (∀ a, a < 4 * k ∨ 4 * k + 4 ≤ a → Memory.read t.buf a = Memory.read s.buf a) ∧
      hostAccess (rd s (0x100 + 4 * k)) t = .next (answered t v)

/-- 20_memory.md R55. -/
def Obligations.ValueWindowIsReadOnly : Prop :=
  ∀ (r : Reg) (i : Nat) (v : Word) (s : State), i < 16 →
    (s.busy = false →
      hostAccess (rd s (0x400 + 0x40 * r.val + 4 * i)) s = .next
        (answered s (if i < s.limbs then limbAt (s.getV r) i else 0#32))) ∧
    hostAccess (wr s (0x400 + 0x40 * r.val + 4 * i) v) s = .next { s with response := .written }

/-- 20_memory.md R58: no read has a side effect. -/
def Obligations.ReadsHaveNoSideEffect : Prop :=
  ∀ (addr bytes : Nat) (s t : State), hostAccess (.read addr bytes) s = .next t →
    t = { s with response := t.response }

/-- 10_state.md R28, R37, R38, 20_memory.md R58: the writes of CTRL, LEN and each half of SCALAR store
their data and nothing else, the reserved bits ignored and the other half of SCALAR kept; CTRL also while
BUSY = 1. Both halves written, in either order, make SCALAR {SCALAR_HI, SCALAR_LO}. -/
def Obligations.DataRegisterWrites : Prop :=
  ∀ (v w : Word) (s : State),
    hostAccess (wr s 0x004 v) s = .next { s with
      doneIe := v.getLsbD 0, errIe := v.getLsbD 1, response := .written } ∧
    (s.busy = false →
      hostAccess (wr s 0x010 v) s = .next { s with
        len := BitVec.ofNat 16 (v.toNat % 2 ^ 16), response := .written } ∧
      hostAccess (wr s 0x018 v) s = .next { s with
        scalar := s.scalar.extractLsb' 32 32 ++ v, response := .written } ∧
      hostAccess (wr s 0x01C w) s = .next { s with
        scalar := w ++ s.scalar.extractLsb' 0 32, response := .written } ∧
      (∃ t, hostAccess (wr s 0x018 v) s = .next t ∧
        hostAccess (wr s 0x01C w) t = .next { s with scalar := w ++ v, response := .written }) ∧
      ∃ t, hostAccess (wr s 0x01C w) s = .next t ∧
        hostAccess (wr s 0x018 v) t = .next { s with scalar := w ++ v, response := .written })

/-- 10_state.md R31: DONE is set in the step that ends a command, whatever access the host makes in
that step, the W1C write of DONE among them; a W1C write alone clears it; writing 0 to bit 1 does not;
a discarded command leaves it. R31 fixes only the W1C of DONE in the ending step. That any other access
of that step is taken before the end, so that a CMD write in it is not accepted and BUSY is 0, is the
model's reading (log entry 9, DEDUCED). -/
def Obligations.DoneSurvivesAWriteInTheSameStep : Prop :=
  ∀ (v : Word) (rest : List Turn) (s t : State),
    (∀ a, s.busy = true → Turn.inside s.params (.hostAndUnit a) = true →
      s.schedule = .hostAndUnit a :: rest →
      ∃ u, step s = .next u ∧ u.done = true ∧ u.busy = false) ∧
    (s.busy = true → s.schedule = .host (wr s 0x008 v) :: rest → step s = .next t →
      t.done = (s.done && !v.getLsbD 1) ∧ t.busy = true) ∧
    (s.busy = true → s.schedule = .unit :: rest → step s = .next t →
      t.done = true ∧ t.busy = false) ∧
    (s.busy = false → s.err ≠ .none → s.schedule = .host (wr s 0x00C v) :: rest → step s = .next t →
      t.done = s.done)

/-- 60_exceptions.md R174: the line follows the CTRL and STATUS fields the host reads. -/
def Obligations.IrqFollowsItsFields : Prop :=
  ∀ s : State,
    (s.irq = true ↔
      (s.ctrlWord.getLsbD 0 = true ∧ s.statusWord.getLsbD 1 = true) ∨
      (s.ctrlWord.getLsbD 1 = true ∧ s.statusWord.extractLsb' 8 4 ≠ 0#4)) ∧
    (∀ k, s.hostIrqInput k = true ↔ k = s.params.fwiIrq ∧ s.irq = true)

/-- 10_state.md R27: CFG is a constant: no step changes it, and it is the R27 word. -/
def Obligations.CfgIsConstant : Prop :=
  (∀ s t : State, step s = .next t → t.params = s.params ∧ cfgWord t.params = cfgWord s.params) ∧
  (∀ (v : Word) (s : State), hostAccess (rd s 0x000) s = .next (answered s (cfgWord s.params)) ∧
    hostAccess (wr s 0x000 v) s = .next { s with response := .written }) ∧
  (∀ p : Params, (cfgWord p).toNat = 16 * 2 ^ 24 + 32 * 2 ^ 16 + 32 * p.width.limbs)

/-! ### Reset, invariants, safety -/

/-- 70_reset_and_hazards.md R180, 10_state.md R40, R182: reset, whatever was in flight. -/
def Obligations.ResetEventRestoresResetValues : Prop :=
  ∀ (rest : List Turn) (s : State), s.schedule = .reset :: rest →
    ∃ t, step s = .next t ∧
      (∀ r, t.getV r = List.replicate s.limbs 0#32) ∧ t.ctrlWord = 0#32 ∧ t.statusWord = 0#32 ∧
      t.len = 0#16 ∧ t.scalar = 0#64 ∧ t.inFlight = none ∧ t.irq = false ∧
      (∀ j, t.readBuf j = freeByte t.draws j) ∧ t.params = s.params

/-- 10_state.md R21 to R23, R26, R40: the state after reset, of every build, keeps the invariant and
is idle without error. -/
def Obligations.ResetStateIsWellFormed : Prop :=
  (∀ p : Params, (State.resetOf p).wf ∧ Trustworthy (State.resetOf p)) ∧
  State.reset.wf ∧ Trustworthy State.reset

/-- 10_state.md R22, R23, R26: every step, from every state that has it, keeps the invariant: each
register holds exactly L limbs and so a number below 2^N; BUF stays in canonical form. -/
def Obligations.EveryStepKeepsTheInvariant : Prop :=
  ∀ s t : State, s.wf → step s = .next t →
    t.wf ∧ t.params = s.params ∧ ∀ r, val (t.getV r) < 2 ^ (32 * t.limbs)

/-- 60_exceptions.md R171, R173: nothing but a host access outside the register space stops the
machine; in particular no command and no error does. -/
def Obligations.OnlyOutsideAccessesStop : Prop :=
  ∀ s : State,
    ((∀ u ∈ s.schedule.head?, Turn.inside s.params u = true) → SafeStep s) ∧
    (∀ f, step s = .fault f → f = .outsideRegisterSpace) ∧ (∀ q, step s ≠ .refused q)
end

