-- ==== Sys2Proof/Laws/State.lean ====
section
/-! SUPPORT. Laws/State.lean: one lemma per field and named update, each by rfl, so that no later
proof unfolds a record update. -/

namespace Sys2Proof.Machine

/-! ### setV -/

@[simp] theorem State.setV_params (s : State) (r : Reg) (x : Value) : (s.setV r x).params = s.params := rfl
@[simp] theorem State.setV_buf (s : State) (r : Reg) (x : Value) : (s.setV r x).buf = s.buf := rfl
@[simp] theorem State.setV_doneIe (s : State) (r : Reg) (x : Value) : (s.setV r x).doneIe = s.doneIe := rfl
@[simp] theorem State.setV_errIe (s : State) (r : Reg) (x : Value) : (s.setV r x).errIe = s.errIe := rfl
@[simp] theorem State.setV_done (s : State) (r : Reg) (x : Value) : (s.setV r x).done = s.done := rfl
@[simp] theorem State.setV_movf (s : State) (r : Reg) (x : Value) : (s.setV r x).movf = s.movf := rfl
@[simp] theorem State.setV_cmp (s : State) (r : Reg) (x : Value) : (s.setV r x).cmp = s.cmp := rfl
@[simp] theorem State.setV_err (s : State) (r : Reg) (x : Value) : (s.setV r x).err = s.err := rfl
@[simp] theorem State.setV_len (s : State) (r : Reg) (x : Value) : (s.setV r x).len = s.len := rfl
@[simp] theorem State.setV_scalar (s : State) (r : Reg) (x : Value) : (s.setV r x).scalar = s.scalar := rfl
@[simp] theorem State.setV_inFlight (s : State) (r : Reg) (x : Value) : (s.setV r x).inFlight = s.inFlight := rfl
@[simp] theorem State.setV_response (s : State) (r : Reg) (x : Value) : (s.setV r x).response = s.response := rfl
@[simp] theorem State.setV_schedule (s : State) (r : Reg) (x : Value) : (s.setV r x).schedule = s.schedule := rfl
@[simp] theorem State.setV_draws (s : State) (r : Reg) (x : Value) : (s.setV r x).draws = s.draws := rfl

/-! ### finish -/

@[simp] theorem State.finish_params (s : State) : (s.finish).params = s.params := rfl
@[simp] theorem State.finish_v (s : State) : (s.finish).v = s.v := rfl
@[simp] theorem State.finish_buf (s : State) : (s.finish).buf = s.buf := rfl
@[simp] theorem State.finish_doneIe (s : State) : (s.finish).doneIe = s.doneIe := rfl
@[simp] theorem State.finish_errIe (s : State) : (s.finish).errIe = s.errIe := rfl
@[simp] theorem State.finish_movf (s : State) : (s.finish).movf = s.movf := rfl
@[simp] theorem State.finish_cmp (s : State) : (s.finish).cmp = s.cmp := rfl
@[simp] theorem State.finish_err (s : State) : (s.finish).err = s.err := rfl
@[simp] theorem State.finish_len (s : State) : (s.finish).len = s.len := rfl
@[simp] theorem State.finish_scalar (s : State) : (s.finish).scalar = s.scalar := rfl
@[simp] theorem State.finish_response (s : State) : (s.finish).response = s.response := rfl
@[simp] theorem State.finish_schedule (s : State) : (s.finish).schedule = s.schedule := rfl
@[simp] theorem State.finish_draws (s : State) : (s.finish).draws = s.draws := rfl

/-! ### recordErr -/

@[simp] theorem State.recordErr_params (s : State) (e : ErrCode) : (s.recordErr e).params = s.params := rfl
@[simp] theorem State.recordErr_v (s : State) (e : ErrCode) : (s.recordErr e).v = s.v := rfl
@[simp] theorem State.recordErr_buf (s : State) (e : ErrCode) : (s.recordErr e).buf = s.buf := rfl
@[simp] theorem State.recordErr_doneIe (s : State) (e : ErrCode) : (s.recordErr e).doneIe = s.doneIe := rfl
@[simp] theorem State.recordErr_errIe (s : State) (e : ErrCode) : (s.recordErr e).errIe = s.errIe := rfl
@[simp] theorem State.recordErr_done (s : State) (e : ErrCode) : (s.recordErr e).done = s.done := rfl
@[simp] theorem State.recordErr_movf (s : State) (e : ErrCode) : (s.recordErr e).movf = s.movf := rfl
@[simp] theorem State.recordErr_cmp (s : State) (e : ErrCode) : (s.recordErr e).cmp = s.cmp := rfl
@[simp] theorem State.recordErr_len (s : State) (e : ErrCode) : (s.recordErr e).len = s.len := rfl
@[simp] theorem State.recordErr_scalar (s : State) (e : ErrCode) : (s.recordErr e).scalar = s.scalar := rfl
@[simp] theorem State.recordErr_inFlight (s : State) (e : ErrCode) : (s.recordErr e).inFlight = s.inFlight := rfl
@[simp] theorem State.recordErr_response (s : State) (e : ErrCode) : (s.recordErr e).response = s.response := rfl
@[simp] theorem State.recordErr_schedule (s : State) (e : ErrCode) : (s.recordErr e).schedule = s.schedule := rfl
@[simp] theorem State.recordErr_draws (s : State) (e : ErrCode) : (s.recordErr e).draws = s.draws := rfl

/-! ### raiseBusy -/

@[simp] theorem State.raiseBusy_params (s : State) : (s.raiseBusy).params = s.params := rfl
@[simp] theorem State.raiseBusy_v (s : State) : (s.raiseBusy).v = s.v := rfl
@[simp] theorem State.raiseBusy_buf (s : State) : (s.raiseBusy).buf = s.buf := rfl
@[simp] theorem State.raiseBusy_doneIe (s : State) : (s.raiseBusy).doneIe = s.doneIe := rfl
@[simp] theorem State.raiseBusy_errIe (s : State) : (s.raiseBusy).errIe = s.errIe := rfl
@[simp] theorem State.raiseBusy_done (s : State) : (s.raiseBusy).done = s.done := rfl
@[simp] theorem State.raiseBusy_movf (s : State) : (s.raiseBusy).movf = s.movf := rfl
@[simp] theorem State.raiseBusy_cmp (s : State) : (s.raiseBusy).cmp = s.cmp := rfl
@[simp] theorem State.raiseBusy_len (s : State) : (s.raiseBusy).len = s.len := rfl
@[simp] theorem State.raiseBusy_scalar (s : State) : (s.raiseBusy).scalar = s.scalar := rfl
@[simp] theorem State.raiseBusy_inFlight (s : State) : (s.raiseBusy).inFlight = s.inFlight := rfl
@[simp] theorem State.raiseBusy_response (s : State) : (s.raiseBusy).response = s.response := rfl
@[simp] theorem State.raiseBusy_schedule (s : State) : (s.raiseBusy).schedule = s.schedule := rfl
@[simp] theorem State.raiseBusy_draws (s : State) : (s.raiseBusy).draws = s.draws := rfl

/-! ### clearErr -/

@[simp] theorem State.clearErr_params (s : State) : (s.clearErr).params = s.params := rfl
@[simp] theorem State.clearErr_v (s : State) : (s.clearErr).v = s.v := rfl
@[simp] theorem State.clearErr_buf (s : State) : (s.clearErr).buf = s.buf := rfl
@[simp] theorem State.clearErr_doneIe (s : State) : (s.clearErr).doneIe = s.doneIe := rfl
@[simp] theorem State.clearErr_errIe (s : State) : (s.clearErr).errIe = s.errIe := rfl
@[simp] theorem State.clearErr_done (s : State) : (s.clearErr).done = s.done := rfl
@[simp] theorem State.clearErr_movf (s : State) : (s.clearErr).movf = s.movf := rfl
@[simp] theorem State.clearErr_cmp (s : State) : (s.clearErr).cmp = s.cmp := rfl
@[simp] theorem State.clearErr_len (s : State) : (s.clearErr).len = s.len := rfl
@[simp] theorem State.clearErr_scalar (s : State) : (s.clearErr).scalar = s.scalar := rfl
@[simp] theorem State.clearErr_inFlight (s : State) : (s.clearErr).inFlight = s.inFlight := rfl
@[simp] theorem State.clearErr_response (s : State) : (s.clearErr).response = s.response := rfl
@[simp] theorem State.clearErr_schedule (s : State) : (s.clearErr).schedule = s.schedule := rfl
@[simp] theorem State.clearErr_draws (s : State) : (s.clearErr).draws = s.draws := rfl

/-! ### clearDone -/

@[simp] theorem State.clearDone_params (s : State) : (s.clearDone).params = s.params := rfl
@[simp] theorem State.clearDone_v (s : State) : (s.clearDone).v = s.v := rfl
@[simp] theorem State.clearDone_buf (s : State) : (s.clearDone).buf = s.buf := rfl
@[simp] theorem State.clearDone_doneIe (s : State) : (s.clearDone).doneIe = s.doneIe := rfl
@[simp] theorem State.clearDone_errIe (s : State) : (s.clearDone).errIe = s.errIe := rfl
@[simp] theorem State.clearDone_movf (s : State) : (s.clearDone).movf = s.movf := rfl
@[simp] theorem State.clearDone_cmp (s : State) : (s.clearDone).cmp = s.cmp := rfl
@[simp] theorem State.clearDone_err (s : State) : (s.clearDone).err = s.err := rfl
@[simp] theorem State.clearDone_len (s : State) : (s.clearDone).len = s.len := rfl
@[simp] theorem State.clearDone_scalar (s : State) : (s.clearDone).scalar = s.scalar := rfl
@[simp] theorem State.clearDone_inFlight (s : State) : (s.clearDone).inFlight = s.inFlight := rfl
@[simp] theorem State.clearDone_response (s : State) : (s.clearDone).response = s.response := rfl
@[simp] theorem State.clearDone_schedule (s : State) : (s.clearDone).schedule = s.schedule := rfl
@[simp] theorem State.clearDone_draws (s : State) : (s.clearDone).draws = s.draws := rfl

/-! ### writeCtrl -/

@[simp] theorem State.writeCtrl_params (s : State) (w : Word) : (s.writeCtrl w).params = s.params := rfl
@[simp] theorem State.writeCtrl_v (s : State) (w : Word) : (s.writeCtrl w).v = s.v := rfl
@[simp] theorem State.writeCtrl_buf (s : State) (w : Word) : (s.writeCtrl w).buf = s.buf := rfl
@[simp] theorem State.writeCtrl_done (s : State) (w : Word) : (s.writeCtrl w).done = s.done := rfl
@[simp] theorem State.writeCtrl_movf (s : State) (w : Word) : (s.writeCtrl w).movf = s.movf := rfl
@[simp] theorem State.writeCtrl_cmp (s : State) (w : Word) : (s.writeCtrl w).cmp = s.cmp := rfl
@[simp] theorem State.writeCtrl_err (s : State) (w : Word) : (s.writeCtrl w).err = s.err := rfl
@[simp] theorem State.writeCtrl_len (s : State) (w : Word) : (s.writeCtrl w).len = s.len := rfl
@[simp] theorem State.writeCtrl_scalar (s : State) (w : Word) : (s.writeCtrl w).scalar = s.scalar := rfl
@[simp] theorem State.writeCtrl_inFlight (s : State) (w : Word) : (s.writeCtrl w).inFlight = s.inFlight := rfl
@[simp] theorem State.writeCtrl_response (s : State) (w : Word) : (s.writeCtrl w).response = s.response := rfl
@[simp] theorem State.writeCtrl_schedule (s : State) (w : Word) : (s.writeCtrl w).schedule = s.schedule := rfl
@[simp] theorem State.writeCtrl_draws (s : State) (w : Word) : (s.writeCtrl w).draws = s.draws := rfl

/-! ### writeBufWord -/

@[simp] theorem State.writeBufWord_params (s : State) (k : Nat) (w : Word) : (s.writeBufWord k w).params = s.params := rfl
@[simp] theorem State.writeBufWord_v (s : State) (k : Nat) (w : Word) : (s.writeBufWord k w).v = s.v := rfl
@[simp] theorem State.writeBufWord_doneIe (s : State) (k : Nat) (w : Word) : (s.writeBufWord k w).doneIe = s.doneIe := rfl
@[simp] theorem State.writeBufWord_errIe (s : State) (k : Nat) (w : Word) : (s.writeBufWord k w).errIe = s.errIe := rfl
@[simp] theorem State.writeBufWord_done (s : State) (k : Nat) (w : Word) : (s.writeBufWord k w).done = s.done := rfl
@[simp] theorem State.writeBufWord_movf (s : State) (k : Nat) (w : Word) : (s.writeBufWord k w).movf = s.movf := rfl
@[simp] theorem State.writeBufWord_cmp (s : State) (k : Nat) (w : Word) : (s.writeBufWord k w).cmp = s.cmp := rfl
@[simp] theorem State.writeBufWord_err (s : State) (k : Nat) (w : Word) : (s.writeBufWord k w).err = s.err := rfl
@[simp] theorem State.writeBufWord_len (s : State) (k : Nat) (w : Word) : (s.writeBufWord k w).len = s.len := rfl
@[simp] theorem State.writeBufWord_scalar (s : State) (k : Nat) (w : Word) : (s.writeBufWord k w).scalar = s.scalar := rfl
@[simp] theorem State.writeBufWord_inFlight (s : State) (k : Nat) (w : Word) : (s.writeBufWord k w).inFlight = s.inFlight := rfl
@[simp] theorem State.writeBufWord_response (s : State) (k : Nat) (w : Word) : (s.writeBufWord k w).response = s.response := rfl
@[simp] theorem State.writeBufWord_schedule (s : State) (k : Nat) (w : Word) : (s.writeBufWord k w).schedule = s.schedule := rfl
@[simp] theorem State.writeBufWord_draws (s : State) (k : Nat) (w : Word) : (s.writeBufWord k w).draws = s.draws := rfl

/-! ### tick -/

@[simp] theorem State.tick_params (s : State) : (s.tick).params = s.params := rfl
@[simp] theorem State.tick_v (s : State) : (s.tick).v = s.v := rfl
@[simp] theorem State.tick_buf (s : State) : (s.tick).buf = s.buf := rfl
@[simp] theorem State.tick_doneIe (s : State) : (s.tick).doneIe = s.doneIe := rfl
@[simp] theorem State.tick_errIe (s : State) : (s.tick).errIe = s.errIe := rfl
@[simp] theorem State.tick_done (s : State) : (s.tick).done = s.done := rfl
@[simp] theorem State.tick_movf (s : State) : (s.tick).movf = s.movf := rfl
@[simp] theorem State.tick_cmp (s : State) : (s.tick).cmp = s.cmp := rfl
@[simp] theorem State.tick_err (s : State) : (s.tick).err = s.err := rfl
@[simp] theorem State.tick_len (s : State) : (s.tick).len = s.len := rfl
@[simp] theorem State.tick_scalar (s : State) : (s.tick).scalar = s.scalar := rfl
@[simp] theorem State.tick_inFlight (s : State) : (s.tick).inFlight = s.inFlight := rfl
@[simp] theorem State.tick_response (s : State) : (s.tick).response = s.response := rfl
@[simp] theorem State.tick_schedule (s : State) : (s.tick).schedule = s.schedule := rfl

/-! ### The fields the updates write, and the views -/

@[simp] theorem State.setV_v (s : State) (r : Reg) (x : Value) : (s.setV r x).v = s.v.set r x := rfl
@[simp] theorem State.finish_inFlight (s : State) : s.finish.inFlight = none := rfl
@[simp] theorem State.finish_done (s : State) : s.finish.done = true := rfl
@[simp] theorem State.recordErr_err (s : State) (e : ErrCode) :
    (s.recordErr e).err = if s.err = .none then e else s.err := rfl
@[simp] theorem State.raiseBusy_err (s : State) :
    s.raiseBusy.err = if s.err = .none then .busy else s.err := rfl
@[simp] theorem State.clearErr_err (s : State) : s.clearErr.err = .none := rfl
@[simp] theorem State.clearDone_done (s : State) : s.clearDone.done = false := rfl
@[simp] theorem State.writeCtrl_doneIe (s : State) (w : Word) :
    (s.writeCtrl w).doneIe = w.getLsbD 0 := rfl
@[simp] theorem State.writeCtrl_errIe (s : State) (w : Word) :
    (s.writeCtrl w).errIe = w.getLsbD 1 := rfl
@[simp] theorem State.tick_draws (s : State) : s.tick.draws = s.draws + 1 := rfl

@[simp] theorem State.setV_limbs (s : State) (r : Reg) (x : Value) :
    (s.setV r x).limbs = s.limbs := rfl
@[simp] theorem State.finish_limbs (s : State) : s.finish.limbs = s.limbs := rfl
@[simp] theorem State.recordErr_limbs (s : State) (e : ErrCode) :
    (s.recordErr e).limbs = s.limbs := rfl
@[simp] theorem State.tick_limbs (s : State) : s.tick.limbs = s.limbs := rfl
@[simp] theorem State.finish_getV (s : State) (r : Reg) : s.finish.getV r = s.getV r := rfl
@[simp] theorem State.recordErr_getV (s : State) (e : ErrCode) (r : Reg) :
    (s.recordErr e).getV r = s.getV r := rfl
@[simp] theorem State.tick_getV (s : State) (r : Reg) : s.tick.getV r = s.getV r := rfl
@[simp] theorem State.finish_busy (s : State) : s.finish.busy = false := rfl
@[simp] theorem State.tick_busy (s : State) : s.tick.busy = s.busy := rfl

/-- Read after write of a value register. -/
theorem State.getV_setV (s : State) (r q : Reg) (x : Value) :
    (s.setV r x).getV q = if r = q then x else s.getV q := by
  simp only [State.getV, State.setV, Fin.getElem_fin, Vector.getElem_set, Fin.ext_iff]

@[simp] theorem State.getV_setV_same (s : State) (r : Reg) (x : Value) :
    (s.setV r x).getV r = x := by
  simp [State.getV_setV]

theorem State.getV_setV_other (s : State) {r q : Reg} (x : Value) (h : r ≠ q) :
    (s.setV r x).getV q = s.getV q := by
  simp [State.getV_setV, h]

/-- Writing back what a register holds changes nothing. -/
theorem State.setV_getV (s : State) (r : Reg) : s.setV r (s.getV r) = s := by
  simp [State.setV, State.getV]

end Sys2Proof.Machine
end

