-- ==== Sys2Proof/Laws/Memory.lean ====
section
/-! SUPPORT. Laws/Memory.lean: read after write for BUF, and the canonical form is kept. -/

namespace Sys2Proof.Machine

@[simp] theorem Memory.read_nil (a : Nat) : Memory.read [] a = none := rfl

/-- Read after write. -/
theorem Memory.read_write (m : Memory) (a j : Nat) (b : Byte) :
    Memory.read (Memory.write m a b) j = if j = a then some b else Memory.read m j := by
  induction m with
  | nil => simp [Memory.write, Memory.read, eq_comm]
  | cons c rest ih =>
    obtain ⟨k, x⟩ := c
    rcases Nat.lt_trichotomy a k with h | h | h
    · simp [Memory.write, Memory.read, h, eq_comm]
    · subst h
      by_cases hj : a = j
      · simp [Memory.write, Memory.read, hj]
      · simp [Memory.write, Memory.read, hj, Ne.symm hj]
    · have h1 : ¬ a < k := by omega
      have h2 : a ≠ k := by omega
      by_cases hk : k = j
      · subst hk
        simp [Memory.write, Memory.read, h1, h2, Ne.symm h2]
      · simp [Memory.write, Memory.read, h1, h2, hk, ih]

/-- Read after a write of consecutive bytes. -/
theorem Memory.read_writeList (m : Memory) (a j : Nat) (bs : List Byte) :
    Memory.read (Memory.writeList m a bs) j =
      if a ≤ j ∧ j < a + bs.length then bs[j - a]? else Memory.read m j := by
  induction bs generalizing m a with
  | nil =>
    have h : ¬ (a ≤ j ∧ j < a + ([] : List Byte).length) := by
      simp only [List.length_nil]
      omega
    rw [if_neg h]
    rfl
  | cons b rest ih =>
    simp only [Memory.writeList, ih, Memory.read_write, List.length_cons]
    rcases Nat.lt_trichotomy j a with h | h | h
    · rw [if_neg (by omega), if_neg (by omega), if_neg (by omega)]
    · subst h
      rw [if_neg (by omega), if_pos rfl, if_pos (by omega)]
      simp
    · by_cases h1 : j < a + (rest.length + 1)
      · rw [if_pos (by omega), if_pos (by omega), show j - a = (j - (a + 1)) + 1 by omega,
          List.getElem?_cons_succ]
      · rw [if_neg (by omega), if_neg (by omega), if_neg (by omega)]

/-- A write inside the bounds keeps a sorted list sorted. -/
theorem Memory.sortedIn_write (m : Memory) (lo hi a : Nat) (b : Byte) (hlo : lo ≤ a) (hhi : a < hi)
    (h : Memory.sortedIn lo hi m = true) : Memory.sortedIn lo hi (Memory.write m a b) = true := by
  induction m generalizing lo with
  | nil => simp [Memory.write, Memory.sortedIn, hlo, hhi]
  | cons c rest ih =>
    obtain ⟨k, x⟩ := c
    simp only [Memory.sortedIn, Bool.and_eq_true, decide_eq_true_eq] at h
    simp only [Memory.write]
    split
    · simp only [Memory.sortedIn, Bool.and_eq_true, decide_eq_true_eq]
      exact ⟨⟨hlo, hhi⟩, ⟨by omega, h.1.2⟩, h.2⟩
    · split
      · rename_i hk
        subst hk
        simp only [Memory.sortedIn, Bool.and_eq_true, decide_eq_true_eq]
        exact h
      · simp only [Memory.sortedIn, Bool.and_eq_true, decide_eq_true_eq]
        exact ⟨h.1, ih (k + 1) (by omega) h.2⟩

/-- A write below BUF_BYTES keeps BUF's canonical form. -/
theorem Memory.wf_write (m : Memory) (a : Nat) (b : Byte) (ha : a < 256) (h : Memory.wf m = true) :
    Memory.wf (Memory.write m a b) = true :=
  Memory.sortedIn_write m 0 256 a b (Nat.zero_le a) ha h

/-- A write of bytes that stay below BUF_BYTES keeps BUF's canonical form. -/
theorem Memory.wf_writeList (m : Memory) (a : Nat) (bs : List Byte) (ha : a + bs.length ≤ 256)
    (h : Memory.wf m = true) : Memory.wf (Memory.writeList m a bs) = true := by
  induction bs generalizing m a with
  | nil => exact h
  | cons b rest ih =>
    simp only [List.length_cons] at ha
    exact ih _ _ (by omega) (Memory.wf_write m a b (by omega) h)

/-- BUF after reset is in canonical form. -/
theorem Memory.wf_reset (p : Config.Params) : Memory.wf (State.resetOf p).buf = true := rfl

end Sys2Proof.Machine
end

