-- ==== Sys2Proof/Laws/Bus.lean ====
section
/-! SUPPORT. Laws/Bus.lean: what a host access can do, said once. -/

namespace Sys2Proof.Machine

/-- The fields of STATUS, for given MOVF and CMP (10_state.md R29). -/
theorem statusWith_fields (s : State) (m : Bool) (c : BitVec 2) :
    (s.statusWith m c).getLsbD 0 = s.busy ∧ (s.statusWith m c).getLsbD 1 = s.done ∧
    (s.statusWith m c).getLsbD 2 = m ∧ (s.statusWith m c).getLsbD 3 = false ∧
    (s.statusWith m c).extractLsb' 4 2 = c ∧ (s.statusWith m c).extractLsb' 6 2 = 0#2 ∧
    (s.statusWith m c).extractLsb' 8 4 = errCode s.err ∧
    (s.statusWith m c).extractLsb' 12 20 = 0#20 := by
  unfold State.statusWith
  generalize s.busy = b
  generalize s.done = d
  generalize errCode s.err = e
  revert b d e m c
  decide

/-- The fields of CTRL as read (10_state.md R28). -/
theorem ctrlWord_fields (s : State) :
    s.ctrlWord.getLsbD 0 = s.doneIe ∧ s.ctrlWord.getLsbD 1 = s.errIe ∧
    s.ctrlWord.extractLsb' 2 30 = 0#30 := by
  unfold State.ctrlWord
  generalize s.doneIe = d
  generalize s.errIe = e
  revert d e
  decide

/-- SCALAR_LO of a pair is its low word (10_state.md R38). -/
theorem low_word_of_append (a b : Word) : (a ++ b).extractLsb' 0 32 = b := by
  apply BitVec.eq_of_getLsbD_eq
  intro i hi
  rw [BitVec.getLsbD_extractLsb', BitVec.getLsbD_append, Nat.zero_add, if_pos hi,
    decide_eq_true hi, Bool.true_and]

/-- SCALAR_HI of a pair is its high word (10_state.md R38). -/
theorem high_word_of_append (a b : Word) : (a ++ b).extractLsb' 32 32 = a := by
  apply BitVec.eq_of_getLsbD_eq
  intro i hi
  rw [BitVec.getLsbD_extractLsb', BitVec.getLsbD_append, if_neg (by omega), decide_eq_true hi,
    Bool.true_and, Nat.add_sub_cancel_left]

/-- An aligned 32-bit read inside the register space (20_memory.md R52). -/
theorem hostAccess_read_word (s : State) (off : Nat) (h : off < 0x800) (h4 : off % 4 = 0) :
    hostAccess (.read (s.params.fwiBase + off) 4) s =
      .next { s with response := .data (s.readPort (portOf off)) } := by
  simp [hostAccess, inRegisterSpace, isWordAccess, h, h4]

/-- An aligned 32-bit write inside the register space (20_memory.md R52). -/
theorem hostAccess_write_word (s : State) (off : Nat) (v : Word) (h : off < 0x800)
    (h4 : off % 4 = 0) :
    hostAccess (.write (s.params.fwiBase + off) 4 v) s =
      .next { s.writePort (portOf off) v with response := .written } := by
  simp [hostAccess, inRegisterSpace, isWordAccess, h, h4]

/-- What a host access can do: stop outside the register space, answer and leave the state, or write
one port. -/
theorem hostAccess_cases (a : Access) (s : State) :
    hostAccess a s = .fault .outsideRegisterSpace ∨
    (∃ x, hostAccess a s = .next { s with response := x }) ∨
    (∃ off v, off < 0x800 ∧ off % 4 = 0 ∧ a = .write (s.params.fwiBase + off) 4 v ∧
      hostAccess a s = .next { s.writePort (portOf off) v with response := .written }) := by
  cases a with
  | read addr bytes =>
    simp only [hostAccess]
    split
    · split
      · exact .inr (.inl ⟨_, rfl⟩)
      · exact .inr (.inl ⟨_, rfl⟩)
    · exact .inl rfl
  | write addr bytes v =>
    simp only [hostAccess]
    split
    · rename_i hin
      split
      · rename_i hw
        simp only [inRegisterSpace, isWordAccess, Bool.and_eq_true, decide_eq_true_eq] at hin hw
        refine .inr (.inr ⟨addr - s.params.fwiBase, v, by omega, hw.2, ?_, rfl⟩)
        rw [show s.params.fwiBase + (addr - s.params.fwiBase) = addr by omega, hw.1]
      · exact .inr (.inl ⟨_, rfl⟩)
    · exact .inl rfl

/-- A port of the BUF window is one of its 64 words. -/
theorem portOf_bufWord (off k : Nat) (h : portOf off = .bufWord k) : k < 64 := by
  simp only [portOf] at h
  repeat' split at h
  all_goals cases h
  omega

/-- What no host write changes. -/
theorem writePort_keeps (s : State) (p : Port) (v : Word) :
    (s.writePort p v).params = s.params ∧ (s.writePort p v).v = s.v ∧
    (s.writePort p v).movf = s.movf ∧ (s.writePort p v).cmp = s.cmp ∧
    (s.writePort p v).response = s.response ∧ (s.writePort p v).schedule = s.schedule ∧
    (s.writePort p v).draws = s.draws := by
  cases p <;> simp only [State.writePort, State.whenIdle, State.issue, State.writeStatus] <;>
    repeat' split
  all_goals simp

/-- While a command is in flight a host write leaves all that commands read and write (20_memory.md
R63). -/
theorem writePort_busy (s : State) (p : Port) (v : Word) (h : s.busy = true) :
    (s.writePort p v).buf = s.buf ∧ (s.writePort p v).len = s.len ∧
    (s.writePort p v).scalar = s.scalar ∧ (s.writePort p v).inFlight = s.inFlight := by
  cases p <;> simp only [State.writePort, State.whenIdle, State.issue, State.writeStatus, h, if_true]
  all_goals repeat' split
  all_goals simp

/-- While a command is in flight no host access takes it out (60_exceptions.md R163). -/
theorem hostAccess_inFlight (a : Access) (s t : State) (hb : s.busy = true)
    (h : hostAccess a s = .next t) : t.inFlight = s.inFlight := by
  obtain h' | ⟨x, h'⟩ | ⟨off, v, -, -, -, h'⟩ := hostAccess_cases a s
  · rw [h'] at h; cases h
  · rw [h'] at h; cases h; rfl
  · rw [h'] at h; cases h; exact (writePort_busy s (portOf off) v hb).2.2.2

/-- A host write keeps BUF's canonical form. -/
theorem writePort_buf_wf (s : State) (off : Nat) (v : Word) (h : Memory.wf s.buf = true) :
    Memory.wf (s.writePort (portOf off) v).buf = true := by
  cases hp : portOf off with
  | bufWord k =>
    have hk := portOf_bufWord off k hp
    simp only [State.writePort, State.whenIdle]
    split
    · simpa using h
    · exact Memory.wf_writeList _ _ _ (by simp; omega) h
  | _ =>
    simp only [State.writePort, State.whenIdle, State.issue, State.writeStatus]
    repeat' split
    all_goals simpa using h

end Sys2Proof.Machine
end

