-- ==== Sys2Proof/Laws/Value.lean ====
section
/-! SUPPORT. Laws/Value.lean: values as numbers: what `val`, `limbsOf` and `limbAt` have to do with
each other, and what the datapaths compute as numbers. -/

namespace Sys2Proof.Machine

/-! ### Values -/

@[simp] theorem val_nil : val [] = 0 := rfl

@[simp] theorem val_cons (x : Limb) (a : Value) : val (x :: a) = x.toNat + 2 ^ 32 * val a := rfl

@[simp] theorem limbAt_cons_zero (x : Limb) (a : Value) : limbAt (x :: a) 0 = x := rfl

@[simp] theorem limbAt_cons_succ (x : Limb) (a : Value) (i : Nat) :
    limbAt (x :: a) (i + 1) = limbAt a i := rfl

@[simp] theorem limbAt_nil (i : Nat) : limbAt [] i = 0#32 := rfl

theorem limbAt_of_length_le (a : Value) (i : Nat) (h : a.length ≤ i) : limbAt a i = 0#32 := by
  simp [limbAt, List.getD, List.getElem?_eq_none h]

theorem two_pow_limb_succ (k : Nat) : 2 ^ (32 * (k + 1)) = 2 ^ 32 * 2 ^ (32 * k) := by
  rw [← Nat.pow_add]
  congr 1
  omega

/-- A value is below 2^N (10_state.md R23). -/
theorem val_lt (a : Value) : val a < 2 ^ (32 * a.length) := by
  induction a with
  | nil => simp
  | cons x a ih =>
    have hx := x.isLt
    simp only [val_cons, List.length_cons, two_pow_limb_succ]
    have h : 2 ^ 32 * (val a + 1) ≤ 2 ^ 32 * 2 ^ (32 * a.length) := Nat.mul_le_mul_left _ ih
    omega

/-- Limb i is half-word i of the number. -/
theorem limbAt_toNat (a : Value) (i : Nat) : (limbAt a i).toNat = val a / 2 ^ (32 * i) % 2 ^ 32 := by
  induction a generalizing i with
  | nil => simp
  | cons x a ih =>
    have hx := x.isLt
    cases i with
    | zero => simp; omega
    | succ i =>
      rw [limbAt_cons_succ, ih, val_cons, two_pow_limb_succ, ← Nat.div_div_eq_div_mul,
        Nat.add_mul_div_left _ _ (by decide : 0 < 2 ^ 32), Nat.div_eq_of_lt hx, Nat.zero_add]

/-- Values of the same length are equal when their numbers are. -/
theorem val_injective {a b : Value} (hl : a.length = b.length) (h : val a = val b) : a = b := by
  apply List.ext_getElem hl
  intro i h1 h2
  have ha := limbAt_toNat a i
  have hb := limbAt_toNat b i
  rw [h] at ha
  have : limbAt a i = limbAt b i := BitVec.eq_of_toNat_eq (ha.trans hb.symm)
  simpa [limbAt, List.getD, h1, h2] using this

@[simp] theorem limbsOf_length (L x : Nat) : (limbsOf L x).length = L := by simp [limbsOf]

/-- `limbs(x)` by its lowest limb and the rest. -/
theorem limbsOf_succ (L x : Nat) :
    limbsOf (L + 1) x = BitVec.ofNat 32 x :: limbsOf L (x / 2 ^ 32) := by
  simp only [limbsOf, List.range_succ_eq_map, List.map_cons, List.map_map]
  congr 1
  apply List.map_congr_left
  intro i _
  simp only [Function.comp, Nat.shiftRight_eq_div_pow, Nat.succ_eq_add_one, two_pow_limb_succ,
    Nat.div_div_eq_div_mul]

/-- `val(limbs(x)) = x mod 2^N` (00_scope.md R12). -/
theorem val_limbsOf (L x : Nat) : val (limbsOf L x) = x % 2 ^ (32 * L) := by
  induction L generalizing x with
  | zero => simp [limbsOf, Nat.mod_one]
  | succ L ih =>
    rw [limbsOf_succ, val_cons, ih, BitVec.toNat_ofNat, two_pow_limb_succ, Nat.mod_mul]

@[simp] theorem zeroValue_length (L : Nat) : (zeroValue L).length = L := by simp [zeroValue]

@[simp] theorem val_zeroValue (L : Nat) : val (zeroValue L) = 0 := by
  induction L with
  | zero => rfl
  | succ L ih => simpa [zeroValue, List.replicate_succ] using ih

@[simp] theorem limbAt_zeroValue (L i : Nat) : limbAt (zeroValue L) i = 0#32 := by
  apply BitVec.eq_of_toNat_eq
  simp [limbAt_toNat]

/-- What setting one limb does to the number. -/
theorem val_set (a : Value) (i : Nat) (x : Limb) (h : i < a.length) :
    val (a.set i x) + (limbAt a i).toNat * 2 ^ (32 * i) = val a + x.toNat * 2 ^ (32 * i) := by
  induction a generalizing i with
  | nil => simp at h
  | cons y a ih =>
    cases i with
    | zero => simp; omega
    | succ i =>
      have := ih i (by simpa using h)
      simp only [List.set_cons_succ, val_cons, limbAt_cons_succ, two_pow_limb_succ]
      have e := congrArg (2 ^ 32 * ·) this
      simp only [Nat.mul_add] at e
      have c1 : (limbAt a i).toNat * (2 ^ 32 * 2 ^ (32 * i)) =
          2 ^ 32 * ((limbAt a i).toNat * 2 ^ (32 * i)) := by ring
      have c2 : x.toNat * (2 ^ 32 * 2 ^ (32 * i)) = 2 ^ 32 * (x.toNat * 2 ^ (32 * i)) := by ring
      omega

/-- Limb j after setting limb i. -/
theorem limbAt_set (a : Value) (i j : Nat) (x : Limb) (h : i < a.length) :
    limbAt (a.set i x) j = if i = j then x else limbAt a j := by
  simp only [limbAt, List.getD, List.getElem?_set]
  by_cases hj : i = j
  · subst hj; simp [h]
  · simp [hj]

/-! ### The adder -/

theorem rippleAdd_length (a b : Value) (c : Nat) (h : a.length = b.length) :
    (rippleAdd a b c).length = a.length := by
  induction a generalizing b c with
  | nil => cases b <;> simp [rippleAdd]
  | cons x a ih =>
    cases b with
    | nil => simp at h
    | cons y b => simpa [rippleAdd] using ih b _ (by simpa using h)

/-- The ripple-carry adder is addition modulo 2^N (42_arithmetic.md R134). -/
theorem val_rippleAdd (a b : Value) (c : Nat) (h : a.length = b.length) :
    val (rippleAdd a b c) = (val a + val b + c) % 2 ^ (32 * a.length) := by
  induction a generalizing b c with
  | nil => cases b <;> simp [rippleAdd, Nat.mod_one]
  | cons x a ih =>
    cases b with
    | nil => simp at h
    | cons y b =>
      have hl : a.length = b.length := by simpa using h
      have e : val (x :: a) + val (y :: b) + c =
          (x.toNat + y.toNat + c) + 2 ^ 32 * (val a + val b) := by
        simp only [val_cons]; ring
      rw [e]
      simp only [rippleAdd, val_cons, ih b _ hl, List.length_cons, two_pow_limb_succ,
        BitVec.toNat_ofNat, Nat.shiftRight_eq_div_pow]
      rw [Nat.mod_mul, Nat.add_mul_mod_self_left, Nat.add_mul_div_left _ _ (by decide : 0 < 2 ^ 32)]
      congr 3
      omega

@[simp] theorem complement_length (a : Value) : (complement a).length = a.length := by
  simp [complement]

theorem toNat_complement_limb (x : Limb) : (x ^^^ 0xFFFFFFFF#32).toNat = 2 ^ 32 - 1 - x.toNat := by
  have : x ^^^ 0xFFFFFFFF#32 = ~~~x := by
    rw [show (0xFFFFFFFF#32) = BitVec.allOnes 32 by decide, BitVec.xor_allOnes]
  rw [this, BitVec.toNat_not]

/-- Complementing every limb subtracts the number from 2^N - 1. -/
theorem val_complement (a : Value) : val (complement a) + val a + 1 = 2 ^ (32 * a.length) := by
  induction a with
  | nil => simp [complement]
  | cons x a ih =>
    have hx := x.isLt
    simp only [complement, List.map_cons, val_cons, List.length_cons, two_pow_limb_succ] at ih ⊢
    rw [toNat_complement_limb, ← ih]
    omega

/-- The complement-and-carry form is subtraction modulo 2^N (42_arithmetic.md R136). -/
theorem val_subtractTc (a b : Value) (h : a.length = b.length) :
    val (subtractTc a b) = (val a + (2 ^ (32 * a.length) - val b)) % 2 ^ (32 * a.length) := by
  have hc := val_complement b
  rw [subtractTc, val_rippleAdd a _ 1 (by simpa using h)]
  congr 1
  rw [h]
  omega

/-- Two's-complement negation (42_arithmetic.md R132). -/
theorem val_negateTc (a : Value) :
    val (negateTc a.length a) = (2 ^ (32 * a.length) - val a) % 2 ^ (32 * a.length) := by
  have hc := val_complement a
  rw [negateTc, val_rippleAdd _ _ 1 (by simp), complement_length]
  congr 1
  simp only [val_zeroValue]
  omega

/-! ### The sign flip -/

@[simp] theorem flipSign_length (L : Nat) (a : Value) : (flipSign L a).length = a.length := by
  simp [flipSign]

theorem flipSign_eq_set (a : Value) (h : a ≠ []) :
    flipSign a.length a =
      a.set (a.length - 1) (limbAt a (a.length - 1) ^^^ 0x80000000#32) := by
  have hp : 0 < a.length := List.length_pos_iff.mpr h
  apply List.ext_getElem (by simp)
  intro i h1 h2
  simp only [flipSign, List.getElem_modify, List.getElem_set]
  by_cases hi : a.length - 1 = i
  · subst hi
    simp [limbAt, List.getD, hp]
  · simp [hi]

/-- Below 2^n, XOR with 2^n adds it. -/
theorem xor_two_pow_of_lt (n y : Nat) (h : y < 2 ^ n) : y ^^^ 2 ^ n = 2 ^ n + y := by
  rw [show 2 ^ n + y = 2 ^ n ||| y by simpa using Nat.two_pow_add_eq_or_of_lt h 1]
  apply Nat.eq_of_testBit_eq
  intro j
  simp only [Nat.testBit_or, Nat.testBit_xor, Nat.testBit_two_pow]
  by_cases hj : n = j
  · subst hj
    simp [Nat.testBit_lt_two_pow h]
  · simp [hj]

/-- XOR with the top bit is addition of it, modulo the width (42_arithmetic.md R131). -/
theorem xor_top_bit (n x : Nat) (h : x < 2 ^ (n + 1)) : x ^^^ 2 ^ n = (x + 2 ^ n) % 2 ^ (n + 1) := by
  have hp : 2 ^ (n + 1) = 2 ^ n + 2 ^ n := by rw [Nat.pow_succ]; omega
  by_cases hb : x < 2 ^ n
  · rw [xor_two_pow_of_lt n x hb, Nat.mod_eq_of_lt (by omega)]
    omega
  · obtain ⟨y, rfl⟩ := Nat.exists_eq_add_of_le (Nat.le_of_not_lt hb)
    have hy : y < 2 ^ n := by omega
    rw [← xor_two_pow_of_lt n y hy, Nat.xor_assoc, Nat.xor_self, Nat.xor_zero,
      xor_two_pow_of_lt n y hy, show 2 ^ n + y + 2 ^ n = y + 2 ^ (n + 1) by omega,
      Nat.add_mod_right, Nat.mod_eq_of_lt (by omega)]

/-- The sign flip of a value is XOR with 2^(N-1) on its number (42_arithmetic.md R131). -/
theorem val_flipSign (a : Value) (h : a ≠ []) :
    val (flipSign a.length a) = val a ^^^ 2 ^ (32 * a.length - 1) := by
  have hp : 0 < a.length := List.length_pos_iff.mpr h
  obtain ⟨n, hn⟩ : ∃ n, a.length = n + 1 := ⟨a.length - 1, by omega⟩
  have hv := val_lt a
  have hs := val_set a (a.length - 1) (limbAt a (a.length - 1) ^^^ 0x80000000#32) (by omega)
  have hx := (limbAt a (a.length - 1)).isLt
  have hl := val_lt (flipSign a.length a)
  rw [flipSign_length] at hl
  rw [← flipSign_eq_set a h] at hs
  rw [show 32 * a.length - 1 = 32 * n + 31 by omega]
  rw [xor_top_bit (32 * n + 31) (val a) (by rw [show 32 * n + 31 + 1 = 32 * a.length by omega]; exact hv)]
  rw [show 32 * n + 31 + 1 = 32 * a.length by omega]
  have e : (limbAt a (a.length - 1) ^^^ 0x80000000#32).toNat =
      ((limbAt a (a.length - 1)).toNat + 2 ^ 31) % 2 ^ 32 := by
    rw [BitVec.toNat_xor]
    exact xor_top_bit 31 _ hx
  rw [e] at hs
  rw [show a.length - 1 = n by omega] at hs hx
  have hN : 2 ^ (32 * a.length) = 2 ^ 32 * 2 ^ (32 * n) := by rw [hn, two_pow_limb_succ]
  have hT : 2 ^ (32 * n + 31) = 2 ^ 31 * 2 ^ (32 * n) := by rw [Nat.pow_add, Nat.mul_comm]
  rw [← Nat.mod_eq_of_lt hl]
  generalize hX : (limbAt a n).toNat = X at *
  generalize hB : 2 ^ (32 * n) = B at *
  by_cases hb : X < 2 ^ 31
  · rw [Nat.mod_eq_of_lt (a := X + 2 ^ 31) (by omega), Nat.add_mul] at hs
    rw [hT, show val (flipSign a.length a) = val a + 2 ^ 31 * B by omega]
  · rw [show (X + 2 ^ 31) % 2 ^ 32 = X - 2 ^ 31 by omega] at hs
    obtain ⟨y, rfl⟩ := Nat.exists_eq_add_of_le (Nat.le_of_not_lt hb)
    rw [Nat.add_sub_cancel_left, Nat.add_mul] at hs
    rw [hN, hT, show val a + 2 ^ 31 * B = val (flipSign a.length a) + 2 ^ 32 * B by omega,
      Nat.add_mod_right]

end Sys2Proof.Machine
end

