-- ==== Sys2Proof/Laws/Conversion.lean ====
section
/-! SUPPORT. Laws/Conversion.lean: the number a digit sequence spells, the decimal conversions and the
hexadecimal text. -/

namespace Sys2Proof.Machine

open Sys2Proof.Config

/-- The number of a digit sequence as the sum of 40_construction.md R106 and R109. -/
theorem positional_map_range (base : Nat) (d : Nat → Nat) (n : Nat) :
    positional base ((List.range n).map d) = ∑ j ∈ Finset.range n, d j * base ^ (n - 1 - j) := by
  induction n generalizing d with
  | zero => rfl
  | succ n ih =>
    rw [List.range_succ_eq_map, List.map_cons, List.map_map, Finset.sum_range_succ']
    simp only [positional, List.length_map, List.length_range, ih, Function.comp]
    rw [Nat.add_comm]
    congr 1
    apply Finset.sum_congr rfl
    intro j _
    rw [show n + 1 - 1 - (j + 1) = n - 1 - j by omega]

theorem positional_append (base : Nat) (xs ys : List Nat) :
    positional base (xs ++ ys) = positional base xs * base ^ ys.length + positional base ys := by
  induction xs with
  | nil => simp [positional]
  | cons x xs ih =>
    simp only [List.cons_append, positional, ih, List.length_append, Nat.pow_add]
    ring

/-- Leading zeros do not change the number (40_construction.md R106). -/
theorem positional_leading_zeros (base z : Nat) (ds : List Nat) :
    positional base (List.replicate z 0 ++ ds) = positional base ds := by
  induction z with
  | zero => rfl
  | succ z ih => simpa [List.replicate_succ, positional] using ih

/-- n digits below the base spell a number below base^n. -/
theorem positional_lt (base : Nat) (ds : List Nat) (h : ∀ d ∈ ds, d < base) :
    positional base ds < base ^ ds.length := by
  induction ds with
  | nil => simp [positional]
  | cons d ds ih =>
    have hd : d + 1 ≤ base := h d (by simp)
    have ih := ih (fun x hx => h x (by simp [hx]))
    simp only [positional, List.length_cons, Nat.pow_succ]
    calc d * base ^ ds.length + positional base ds < (d + 1) * base ^ ds.length := by
          rw [Nat.add_mul]; omega
      _ ≤ base ^ ds.length * base := by
          rw [Nat.mul_comm]; exact Nat.mul_le_mul_left _ hd

/-- The digits from the rightmost on: the loop order of 40_construction.md R107. -/
theorem positional_reverse_cons (base d : Nat) (ds : List Nat) :
    positional base (d :: ds).reverse = positional base ds.reverse * base + d := by
  rw [List.reverse_cons, positional_append]
  simp [positional]

theorem decimalExact_length (L : Nat) (ds : List Nat) (x : Value)
    (h : decimalExact L ds = some x) : x.length = L := by
  simp only [decimalExact] at h
  split at h
  · cases h
  · cases h; simp

theorem decimalSourceLoop_length (L : Nat) (ds : List Nat) (tmp : Value) (acc mult : MachineWord)
    (k : Nat) (x : Value) (h : decimalSourceLoop L ds tmp acc mult k = some x) :
    x.length = tmp.length := by
  induction ds generalizing tmp acc mult k with
  | nil =>
    simp only [decimalSourceLoop] at h
    split at h
    · cases h; rfl
    · split at h
      · cases h
      · cases h; simp
  | cons d ds ih =>
    simp only [decimalSourceLoop] at h
    split at h
    · split at h
      · cases h
      · simpa using ih _ _ _ _ h
    · exact ih _ _ _ _ h

/-- The conversion of LDDEC gives L limbs in either mode. -/
theorem decimalResult_length (m : DecMode) (L : Nat) (ds : List Nat) (x : Value)
    (h : decimalResult m L ds = some x) : x.length = L := by
  cases m
  · exact decimalExact_length L ds x h
  · simpa using decimalSourceLoop_length L ds.reverse (zeroValue L) 0#64 1#64 0 x h

/-! ### Hexadecimal text -/

@[simp] theorem hexLimb_length (x : Limb) (u : Bool) : (hexLimb x u).length = 8 := by simp [hexLimb]

/-- The string has 8 characters a limb: N/4 (43_serialization.md R150). -/
theorem hexString_length (a : Value) (u : Bool) : (hexString a u).length = 8 * a.length := by
  induction a with
  | nil => rfl
  | cons x a ih =>
    simp only [hexString, List.flatMap_cons, List.length_append, hexLimb_length,
      List.length_cons] at ih ⊢
    omega

/-- Character 8i+q is digit q of limb i (43_serialization.md R150). -/
theorem hexString_getElem? (a : Value) (u : Bool) (i q : Nat) (hi : i < a.length) (hq : q < 8) :
    (hexString a u)[8 * i + q]? =
      some (hexChar (((limbAt a i).toNat >>> (4 * (7 - q))) &&& 0xF) u) := by
  induction a generalizing i with
  | nil => simp at hi
  | cons x a ih =>
    simp only [hexString, List.flatMap_cons] at ih ⊢
    cases i with
    | zero =>
      rw [List.getElem?_append_left (by simpa using hq)]
      simp [hexLimb, hq]
    | succ i =>
      rw [List.getElem?_append_right (by simp; omega), hexLimb_length,
        show 8 * (i + 1) + q - 8 = 8 * i + q by omega, limbAt_cons_succ]
      exact ih i (by simpa using hi)

end Sys2Proof.Machine
end

