-- ==== Sys2Proof/Laws/PerInstr.lean ====
section
/-! SUPPORT. Laws/PerInstr.lean: one statement for every command, proved command by command: its word
carries its OPC and meets its row's mask and match (30_encoding.md R79). -/

namespace Sys2Proof.Laws

/-- A legal size code is 0 to 3 (30_encoding.md R77). -/
theorem sizeCode_cases (fn : BitVec 8) (h : sizeCodeOk fn = true) :
    fn = 0#8 ∨ fn = 1#8 ∨ fn = 2#8 ∨ fn = 3#8 := by
  revert fn
  decide

/-- A legal case code is 0 or 1 (30_encoding.md R78). -/
theorem caseCode_cases (fn : BitVec 8) (h : caseCodeOk fn = true) : fn = 0#8 ∨ fn = 1#8 := by
  revert fn
  decide

namespace EncodingMeetsTheMap

/-- The word of a legal command selects its operation and meets its mask and match. -/
def Statement (i : Instr) : Prop :=
  i.wellFormed = true →
    operationOf (opcField (encode i)) = some (operation i) ∧
    encode i &&& maskOf (operation i) = matchOf (operation i)

theorem clr (rd : Reg) : Statement (.clr rd) := by intro _; revert rd; decide
theorem mov (rd rs : Reg) : Statement (.mov rd rs) := by intro _; revert rd rs; decide
theorem ldu (rd : Reg) (fn : BitVec 8) : Statement (.ldu rd fn) := by
  intro h
  obtain rfl | rfl | rfl | rfl := sizeCode_cases fn h <;> revert rd <;> decide
theorem lddec (rd : Reg) : Statement (.lddec rd) := by intro _; revert rd; decide
theorem ldbytes (rd : Reg) : Statement (.ldbytes rd) := by intro _; revert rd; decide
theorem ldhex (rd : Reg) : Statement (.ldhex rd) := by intro _; revert rd; decide
theorem cmp (rd rs : Reg) : Statement (.cmp rd rs) := by intro _; revert rd rs; decide
theorem neg (rd : Reg) : Statement (.neg rd) := by intro _; revert rd; decide
theorem negtc (rd : Reg) : Statement (.negtc rd) := by intro _; revert rd; decide
theorem add (rd rs : Reg) : Statement (.add rd rs) := by intro _; revert rd rs; decide
theorem sub (rd rs : Reg) : Statement (.sub rd rs) := by intro _; revert rd rs; decide
theorem subtc (rd rs : Reg) : Statement (.subtc rd rs) := by intro _; revert rd rs; decide
theorem mul (rd rs : Reg) : Statement (.mul rd rs) := by intro _; revert rd rs; decide
theorem tohex (rs : Reg) (fn : BitVec 8) : Statement (.tohex rs fn) := by
  intro h
  obtain rfl | rfl := caseCode_cases fn h <;> revert rs <;> decide

end EncodingMeetsTheMap

end Sys2Proof.Laws
end

