-- ==== Sys2Proof/Laws/Decode.lean ====
section
/-! SUPPORT. Laws/Decode.lean: a command word and its five fields (30_encoding.md R70). -/

namespace Sys2Proof.Laws

/-- The five fields of a word: bits 31:24, FN, RS, RD, OPC. -/
def packFields (hi fn : BitVec 8) (rs rd : BitVec 4) (opc : BitVec 8) : Word :=
  hi ++ fn ++ rs ++ rd ++ opc

/-- A word is its five fields. -/
theorem word_eq_packFields (c : Word) :
    c = packFields (c.extractLsb' 24 8) (c.extractLsb' 16 8) (c.extractLsb' 12 4)
      (c.extractLsb' 8 4) (c.extractLsb' 0 8) := by
  apply BitVec.eq_of_getLsbD_eq
  intro i hi
  simp only [packFields, BitVec.getLsbD_append, BitVec.getLsbD_extractLsb']
  by_cases h1 : i < 8
  · simp [h1]
  · by_cases h2 : i - 8 < 4
    · simp [h1, h2, show 8 + (i - 8) = i by omega]
    · by_cases h3 : i - 8 - 4 < 4
      · simp [h1, h2, h3, show 12 + (i - 8 - 4) = i by omega]
      · by_cases h4 : i - 8 - 4 - 4 < 8
        · simp [h1, h2, h3, h4, show 16 + (i - 8 - 4 - 4) = i by omega]
        · simp [h1, h2, h3, h4, show i - 8 - 4 - 4 - 8 < 8 by omega,
            show 24 + (i - 8 - 4 - 4 - 8) = i by omega]

/-- A field of a masked word. -/
theorem field_of_masked {c m v : Word} (h : c &&& m = v) (start len : Nat) :
    c.extractLsb' start len &&& m.extractLsb' start len = v.extractLsb' start len := by
  rw [← h, BitVec.extractLsb'_and]

/-- RS as a 4-bit field. -/
theorem ofNat_rsField (c : Word) : BitVec.ofNat 4 (rsField c).val = c.extractLsb' 12 4 := by
  apply BitVec.eq_of_toNat_eq
  simp [rsField]

/-- RD as a 4-bit field. -/
theorem ofNat_rdField (c : Word) : BitVec.ofNat 4 (rdField c).val = c.extractLsb' 8 4 := by
  apply BitVec.eq_of_toNat_eq
  simp [rdField]

/-- A word whose bits 31:24 are 0 is the packing of its FN, RS, RD and OPC. -/
theorem packWord_fields (c : Word) (h : c.extractLsb' 24 8 = 0#8) :
    packWord (fnField c) (rsField c) (rdField c) (opcField c) = c := by
  conv_rhs => rw [word_eq_packFields c, h]
  rw [packWord, ofNat_rsField, ofNat_rdField]
  rfl

/-- What decoding accepts: an operation whose OPC, mask and match the word meets. -/
theorem decode_eq_ok (c : Word) (i : Instr) (h : decode c = .ok i) :
    ∃ o, opcField c = opcOf o ∧ c &&& maskOf o = matchOf o ∧ i = instrOf o c := by
  unfold decode at h
  split at h
  · cases h
  · rename_i o ho
    split at h
    · rename_i hm
      cases h
      refine ⟨o, ?_, hm, rfl⟩
      have hb := List.find?_some ho
      exact (beq_iff_eq.mp hb).symm
    · cases h

/-- The OPC field of a word that meets an operation's mask and match is the operation's OPC. -/
theorem opcField_of_masked (c : Word) (o : Operation) (h : c &&& maskOf o = matchOf o) :
    opcField c = opcOf o := by
  have h0 := field_of_masked h 0 8
  have hm : (maskOf o).extractLsb' 0 8 = 0xFF#8 := by cases o <;> decide
  have hv : (matchOf o).extractLsb' 0 8 = opcOf o := by cases o <;> decide
  rw [hm, hv, show (0xFF#8) = BitVec.allOnes 8 by decide, BitVec.and_allOnes] at h0
  exact h0

/-- The operation of an OPC that the map holds. -/
theorem operationOf_opcOf (o : Operation) : operationOf (opcOf o) = some o := by
  cases o <;> decide

/-- A word that meets an operation's mask and match decodes to that operation's command. -/
theorem decode_of_masked (c : Word) (o : Operation) (h : c &&& maskOf o = matchOf o) :
    decode c = .ok (instrOf o c) := by
  simp [decode, opcField_of_masked c o h, operationOf_opcOf, h]

end Sys2Proof.Laws
end

