-- ==== Sys2Proof/Laws/Multiplier.lean ====
section
/-! SUPPORT. Laws/Multiplier.lean: what the two schoolbook multipliers compute as numbers
(42_arithmetic.md R138, R139). -/

namespace Sys2Proof.Machine

/-- The number modulo the next half-word boundary. -/
theorem mod_limb_succ (v n : Nat) :
    v % 2 ^ (32 * (n + 1)) = v % 2 ^ (32 * n) + 2 ^ (32 * n) * (v / 2 ^ (32 * n) % 2 ^ 32) := by
  rw [two_pow_limb_succ, Nat.mul_comm, Nat.mod_mul]

/-! ### mul_propagate -/

/-- The inner loop keeps the number of limbs. -/
theorem mulStepPropagate_length (af : Limb) (b : Value) (f : Nat) (st : Value × Nat) (s : Nat) :
    (mulStepPropagate af b f st s).1.length = st.1.length := by
  simp [mulStepPropagate]

theorem foldl_mulStepPropagate_length (af : Limb) (b : Value) (f : Nat) (st : Value × Nat)
    (ns : List Nat) :
    (ns.foldl (mulStepPropagate af b f) st).1.length = st.1.length := by
  induction ns generalizing st with
  | nil => rfl
  | cons n ns ih => simp [ih, mulStepPropagate_length]

/-- One step of the inner loop adds its partial product and the carry it took. -/
theorem val_mulStepPropagate (af : Limb) (b : Value) (f s : Nat) (st : Value × Nat)
    (h : f + s < st.1.length) :
    val (mulStepPropagate af b f st s).1
        + (mulStepPropagate af b f st s).2 * 2 ^ (32 * (f + s + 1)) =
      val st.1 + (af.toNat * (limbAt b s).toNat + st.2) * 2 ^ (32 * (f + s)) := by
  simp only [mulStepPropagate]
  have hs := val_set st.1 (f + s) (BitVec.ofNat 32
    ((limbAt st.1 (f + s)).toNat + af.toNat * (limbAt b s).toNat + st.2)) h
  rw [BitVec.toNat_ofNat] at hs
  have hd := Nat.div_add_mod ((limbAt st.1 (f + s)).toNat + af.toNat * (limbAt b s).toNat + st.2)
    (2 ^ 32)
  rw [Nat.shiftRight_eq_div_pow, two_pow_limb_succ]
  generalize (limbAt st.1 (f + s)).toNat = l at *
  generalize af.toNat * (limbAt b s).toNat = p at *
  generalize (l + p + st.2) / 2 ^ 32 = q at *
  generalize (l + p + st.2) % 2 ^ 32 = m at *
  generalize 2 ^ (32 * (f + s)) = B at *
  have e : (2 ^ 32 * q + m) * B = (l + p + st.2) * B := by rw [hd]
  have e1 : q * (2 ^ 32 * B) = 2 ^ 32 * q * B := by ring
  rw [Nat.add_mul, Nat.add_mul, Nat.add_mul] at e
  rw [e1, Nat.add_mul]
  omega

/-- The inner loop after n steps. -/
theorem val_foldl_mulStepPropagate (af : Limb) (b : Value) (f n : Nat) (tmp : Value)
    (h : f + n ≤ tmp.length) :
    val ((List.range n).foldl (mulStepPropagate af b f) (tmp, 0)).1
        + ((List.range n).foldl (mulStepPropagate af b f) (tmp, 0)).2 * 2 ^ (32 * (f + n)) =
      val tmp + af.toNat * (val b % 2 ^ (32 * n)) * 2 ^ (32 * f) := by
  induction n with
  | zero => simp [Nat.mod_one]
  | succ n ih =>
    have ih := ih (by omega)
    rw [List.range_succ, List.foldl_append, List.foldl_cons, List.foldl_nil]
    have hl := foldl_mulStepPropagate_length af b f (tmp, 0) (List.range n)
    generalize hst : (List.range n).foldl (mulStepPropagate af b f) (tmp, 0) = st at *
    have h1 := val_mulStepPropagate af b f n st (by rw [hl]; simp only []; omega)
    rw [show f + (n + 1) = f + n + 1 by omega, h1, mod_limb_succ, limbAt_toNat]
    have hB : 2 ^ (32 * (f + n)) = 2 ^ (32 * n) * 2 ^ (32 * f) := by
      rw [← Nat.pow_add, ← Nat.mul_add, Nat.add_comm]
    rw [hB] at ih ⊢
    generalize val b / 2 ^ (32 * n) % 2 ^ 32 = x
    generalize val b % 2 ^ (32 * n) = m at *
    generalize af.toNat = y at *
    generalize 2 ^ (32 * n) = B at *
    generalize 2 ^ (32 * f) = F at *
    calc val st.1 + (y * x + st.2) * (B * F)
        = val st.1 + st.2 * (B * F) + y * x * (B * F) := by ring
      _ = val tmp + y * (m + B * x) * F := by rw [ih]; ring

/-- One pass of the outer loop, modulo 2^N. -/
theorem val_mulPassPropagate (L : Nat) (a b tmp : Value) (f : Nat) (hf : f < L)
    (h : tmp.length = L) :
    val (mulPassPropagate L a b tmp f) =
      (val tmp + (limbAt a f).toNat * val b * 2 ^ (32 * f)) % 2 ^ (32 * L) := by
  have h1 := val_foldl_mulStepPropagate (limbAt a f) b f (L - f) tmp (by omega)
  have hl := foldl_mulStepPropagate_length (limbAt a f) b f (tmp, 0) (List.range (L - f))
  have hlt := val_lt (mulPassPropagate L a b tmp f)
  rw [mulPassPropagate] at hlt ⊢
  rw [hl, h] at hlt
  generalize (List.range (L - f)).foldl (mulStepPropagate (limbAt a f) b f) (tmp, 0) = st at *
  rw [show f + (L - f) = L by omega] at h1
  have hd := Nat.div_add_mod (val b) (2 ^ (32 * (L - f)))
  have hB : 2 ^ (32 * L) = 2 ^ (32 * (L - f)) * 2 ^ (32 * f) := by
    rw [← Nat.pow_add]; congr 1; omega
  have e : val tmp + (limbAt a f).toNat * val b * 2 ^ (32 * f) =
      val st.1 + 2 ^ (32 * L) *
        (st.2 + (limbAt a f).toNat * (val b / 2 ^ (32 * (L - f)))) := by
    calc val tmp + (limbAt a f).toNat * val b * 2 ^ (32 * f)
        = (val tmp + (limbAt a f).toNat * (val b % 2 ^ (32 * (L - f))) * 2 ^ (32 * f))
          + (limbAt a f).toNat * (val b / 2 ^ (32 * (L - f)))
            * (2 ^ (32 * (L - f)) * 2 ^ (32 * f)) := by
          conv_lhs => rw [← hd]
          ring
      _ = _ := by rw [← h1, ← hB]; ring
  rw [e, Nat.add_mul_mod_self_left, Nat.mod_eq_of_lt hlt]

theorem mulPassPropagate_length (L : Nat) (a b tmp : Value) (f : Nat) :
    (mulPassPropagate L a b tmp f).length = tmp.length := by
  simp [mulPassPropagate, foldl_mulStepPropagate_length]

/-- The outer loop after n passes. -/
theorem val_foldl_mulPassPropagate (L : Nat) (a b : Value) (n : Nat) (hn : n ≤ L) :
    ((List.range n).foldl (mulPassPropagate L a b) (zeroValue L)).length = L ∧
    val ((List.range n).foldl (mulPassPropagate L a b) (zeroValue L)) =
      (val a % 2 ^ (32 * n)) * val b % 2 ^ (32 * L) := by
  induction n with
  | zero => simp [Nat.mod_one]
  | succ n ih =>
    obtain ⟨hl, hv⟩ := ih (by omega)
    rw [List.range_succ, List.foldl_append, List.foldl_cons, List.foldl_nil]
    refine ⟨by rw [mulPassPropagate_length, hl], ?_⟩
    rw [val_mulPassPropagate L a b _ n (by omega) hl, hv, mod_limb_succ, limbAt_toNat,
      Nat.mod_add_mod]
    congr 1
    ring

theorem mulPropagate_length (L : Nat) (a b : Value) : (mulPropagate L a b).length = L :=
  (val_foldl_mulPassPropagate L a b L (Nat.le_refl L)).1

/-- `val(tmp) = P mod 2^N` (42_arithmetic.md R138). -/
theorem val_mulPropagate (L : Nat) (a b : Value) (ha : a.length = L) :
    val (mulPropagate L a b) = val a * val b % 2 ^ (32 * L) := by
  have h := (val_foldl_mulPassPropagate L a b L (Nat.le_refl L)).2
  have hlt := val_lt a
  rw [ha] at hlt
  rwa [Nat.mod_eq_of_lt hlt] at h

/-! ### mul_drop -/

theorem mulStepDrop_length (L : Nat) (af : Limb) (b : Value) (f : Nat) (st : Value × Nat)
    (s : Nat) : (mulStepDrop L af b f st s).1.length = st.1.length := by
  simp only [mulStepDrop]
  split <;> simp

theorem foldl_mulStepDrop_length (L : Nat) (af : Limb) (b : Value) (f : Nat) (st : Value × Nat)
    (ns : List Nat) : (ns.foldl (mulStepDrop L af b f) st).1.length = st.1.length := by
  induction ns generalizing st with
  | nil => rfl
  | cons n ns ih => simp [ih, mulStepDrop_length]

theorem mulPassDrop_length (L : Nat) (a b tmp : Value) (f : Nat) :
    (mulPassDrop L a b tmp f).length = tmp.length := by
  simp [mulPassDrop, foldl_mulStepDrop_length]

theorem foldl_mulPassDrop_length (L : Nat) (a b tmp : Value) (ns : List Nat) :
    (ns.foldl (mulPassDrop L a b) tmp).length = tmp.length := by
  induction ns generalizing tmp with
  | nil => rfl
  | cons n ns ih => simp [ih, mulPassDrop_length]

theorem mulDrop_length (L : Nat) (a b : Value) : (mulDrop L a b).length = L := by
  simp [mulDrop, foldl_mulPassDrop_length]

/-- The product limbs of MUL are L limbs in either mode. -/
theorem mulResult_length (m : Config.MulCarry) (L : Nat) (a b : Value) :
    (mulResult m L a b).length = L := by
  cases m
  · exact mulPropagate_length L a b
  · exact mulDrop_length L a b

/-- The row carry of mul_drop after n steps is the row product shifted right by n half-words. -/
theorem rowCarry_succ (x v n : Nat) :
    x * (v / 2 ^ (32 * n) % 2 ^ 32) + x * (v % 2 ^ (32 * n)) / 2 ^ (32 * n) =
      x * (v % 2 ^ (32 * (n + 1))) / 2 ^ (32 * n) := by
  rw [mod_limb_succ, Nat.mul_add,
    show x * (2 ^ (32 * n) * (v / 2 ^ (32 * n) % 2 ^ 32)) =
      2 ^ (32 * n) * (x * (v / 2 ^ (32 * n) % 2 ^ 32)) by ring,
    Nat.add_mul_div_left _ _ (Nat.two_pow_pos _)]
  omega

/-- The low half of the row's partial product is a half-word of the whole row product. -/
theorem rowLow (x v n : Nat) :
    x * (v % 2 ^ (32 * (n + 1))) / 2 ^ (32 * n) % 2 ^ 32 = x * v / 2 ^ (32 * n) % 2 ^ 32 := by
  have hd := Nat.div_add_mod v (2 ^ (32 * (n + 1)))
  conv_rhs => rw [← hd]
  rw [Nat.mul_add x, two_pow_limb_succ,
    show x * (2 ^ 32 * 2 ^ (32 * n) * (v / (2 ^ 32 * 2 ^ (32 * n)))) =
      2 ^ (32 * n) * (2 ^ 32 * (x * (v / (2 ^ 32 * 2 ^ (32 * n))))) by ring,
    Nat.add_comm, Nat.add_mul_div_left _ _ (Nat.two_pow_pos _), Nat.add_mul_mod_self_left]

/-- The inner loop of mul_drop after n steps: the carry, and what was added to each limb. -/
theorem foldl_mulStepDrop (L : Nat) (af : Limb) (b : Value) (f n : Nat) (tmp : Value)
    (h : tmp.length = L) :
    ((List.range n).foldl (mulStepDrop L af b f) (tmp, 0)).2 =
        af.toNat * (val b % 2 ^ (32 * n)) / 2 ^ (32 * n) ∧
    ∀ k < L, (limbAt ((List.range n).foldl (mulStepDrop L af b f) (tmp, 0)).1 k).toNat =
      if f ≤ k ∧ k < f + n then
        ((limbAt tmp k).toNat + af.toNat * val b / 2 ^ (32 * (k - f)) % 2 ^ 32) % 2 ^ 32
      else (limbAt tmp k).toNat := by
  induction n with
  | zero =>
    refine ⟨by simp [Nat.mod_one], fun k _ => ?_⟩
    rw [if_neg (by omega)]
    rfl
  | succ n ih =>
    obtain ⟨hc, hk⟩ := ih
    rw [List.range_succ, List.foldl_append, List.foldl_cons, List.foldl_nil]
    have hl := foldl_mulStepDrop_length L af b f (tmp, 0) (List.range n)
    generalize (List.range n).foldl (mulStepDrop L af b f) (tmp, 0) = st at *
    have hp : af.toNat * (limbAt b n).toNat + st.2 =
        af.toNat * (val b % 2 ^ (32 * (n + 1))) / 2 ^ (32 * n) := by
      rw [hc, limbAt_toNat, rowCarry_succ]
    simp only [mulStepDrop, hp]
    refine ⟨by rw [Nat.shiftRight_eq_div_pow, two_pow_limb_succ, Nat.div_div_eq_div_mul,
      Nat.mul_comm (2 ^ (32 * n))], fun k hkL => ?_⟩
    rw [rowLow]
    by_cases hfn : f + n < L
    · rw [if_pos hfn, limbAt_set _ _ _ _ (by rw [hl]; simp only []; omega)]
      by_cases he : f + n = k
      · rw [if_pos he, if_pos (by omega), BitVec.toNat_ofNat, hk (f + n) hfn,
          if_neg (by omega), he, show k - f = n by omega]
      · rw [if_neg he, hk k hkL]
        by_cases hr : f ≤ k ∧ k < f + n
        · rw [if_pos hr, if_pos (by omega)]
        · rw [if_neg hr, if_neg (by omega)]
    · rw [if_neg hfn, hk k hkL]
      by_cases hr : f ≤ k ∧ k < f + n
      · rw [if_pos hr, if_pos (by omega)]
      · rw [if_neg hr, if_neg (by omega)]

/-- One pass of the outer loop of mul_drop, limb by limb. -/
theorem limbAt_mulPassDrop (L : Nat) (a b tmp : Value) (f k : Nat) (hk : k < L)
    (h : tmp.length = L) :
    (limbAt (mulPassDrop L a b tmp f) k).toNat =
      if f ≤ k then
        ((limbAt tmp k).toNat + (limbAt a f).toNat * val b / 2 ^ (32 * (k - f)) % 2 ^ 32) % 2 ^ 32
      else (limbAt tmp k).toNat := by
  rw [mulPassDrop, (foldl_mulStepDrop L (limbAt a f) b f L tmp h).2 k hk]
  by_cases hf : f ≤ k
  · rw [if_pos (by omega), if_pos hf]
  · rw [if_neg (by omega), if_neg hf]

end Sys2Proof.Machine
end

