-- ==== Sys2Proof/Laws/Exec.lean ====
section
/-! SUPPORT. Laws/Exec.lean: what a command can do, said once: it completes with its writes, or it
raises an error and writes nothing. Provers cite `exec_cases` rather than unfold the meanings. -/

namespace Sys2Proof.Machine

@[simp] theorem complete_eq (s : State) : complete s = .next s.finish := rfl

@[simp] theorem raiseErr_eq (e : ErrCode) (s : State) :
    raiseErr e s = .next (s.recordErr e).finish := rfl

/-- LDDEC: the four ends it can have (40_construction.md R105). -/
theorem execLddec_cases (rd : Reg) (s : State) :
    (256 < s.len.toNat ∧ execLddec rd s = .next (s.recordErr .size).finish) ∨
    (s.len.toNat ≤ 256 ∧ (s.bufPrefix s.len.toNat).all isDigit = false ∧
      execLddec rd s = .next (s.recordErr .digit).finish) ∨
    (s.len.toNat ≤ 256 ∧ (s.bufPrefix s.len.toNat).all isDigit = true ∧
      decimalResult s.params.decMode s.limbs (digitValues (s.bufPrefix s.len.toNat)) = none ∧
      execLddec rd s = .next (s.recordErr .overflow).finish) ∨
    (∃ x, s.len.toNat ≤ 256 ∧ (s.bufPrefix s.len.toNat).all isDigit = true ∧
      decimalResult s.params.decMode s.limbs (digitValues (s.bufPrefix s.len.toNat)) = some x ∧
      execLddec rd s = .next (s.setV rd x).finish) := by
  unfold execLddec
  by_cases h : s.len.toNat > Config.bufBytes
  · exact .inl ⟨h, by rw [if_pos h]; rfl⟩
  · rw [if_neg h]
    have h' : s.len.toNat ≤ 256 := Nat.le_of_not_lt h
    by_cases hd : (s.bufPrefix s.len.toNat).all isDigit = true
    · rw [if_pos hd]
      cases hr : decimalResult s.params.decMode s.limbs
          (digitValues (s.bufPrefix s.len.toNat)) with
      | none => exact .inr (.inr (.inl ⟨h', hd, rfl, rfl⟩))
      | some x => exact .inr (.inr (.inr ⟨x, h', hd, rfl, rfl⟩))
    · rw [if_neg hd]
      exact .inr (.inl ⟨h', by simpa using hd, rfl⟩)

/-- LDBYTES: the two ends it can have (40_construction.md R109). -/
theorem execLdbytes_cases (rd : Reg) (s : State) :
    (4 * s.limbs < s.len.toNat ∧ execLdbytes rd s = .next (s.recordErr .size).finish) ∨
    (s.len.toNat ≤ 4 * s.limbs ∧ execLdbytes rd s = .next
      (s.setV rd (limbsOf s.limbs (bytesNumber (s.bufPrefix s.len.toNat)))).finish) := by
  unfold execLdbytes
  by_cases h : s.len.toNat > 4 * s.limbs
  · exact .inl ⟨h, by rw [if_pos h]; rfl⟩
  · exact .inr ⟨Nat.le_of_not_lt h, by rw [if_neg h]; rfl⟩

/-- What a command can do: it raises one of the command errors; or it writes one register, with L
limbs from L-limb registers; or it is SUB, MUL, CMP or TOHEX, which write more. -/
theorem exec_cases (i : Instr) (s : State) :
    (∃ e, e ≠ .none ∧ e ≠ .busy ∧ exec i s = .next (s.recordErr e).finish) ∨
    (∃ d x, exec i s = .next (s.setV d x).finish ∧
      ((∀ r, (s.getV r).length = s.limbs) → x.length = s.limbs)) ∨
    (∃ d r, i = .sub d r) ∨ (∃ d r, i = .mul d r) ∨ (∃ d r, i = .cmp d r) ∨
    (∃ r fn, i = .tohex r fn) := by
  cases i with
  | clr d => exact .inr (.inl ⟨d, _, rfl, fun _ => by simp⟩)
  | mov d r => exact .inr (.inl ⟨d, _, rfl, fun h => h r⟩)
  | ldu d fn => exact .inr (.inl ⟨d, _, rfl, fun _ => by simp⟩)
  | lddec d =>
    obtain ⟨-, h⟩ | ⟨-, -, h⟩ | ⟨-, -, -, h⟩ | ⟨x, -, -, hx, h⟩ := execLddec_cases d s
    · exact .inl ⟨_, by decide, by decide, h⟩
    · exact .inl ⟨_, by decide, by decide, h⟩
    · exact .inl ⟨_, by decide, by decide, h⟩
    · exact .inr (.inl ⟨d, x, h, fun _ => decimalResult_length _ _ _ _ hx⟩)
  | ldbytes d =>
    obtain ⟨-, h⟩ | ⟨-, h⟩ := execLdbytes_cases d s
    · exact .inl ⟨_, by decide, by decide, h⟩
    · exact .inr (.inl ⟨d, _, h, fun _ => by simp⟩)
  | ldhex d => exact .inl ⟨.unimpl, by decide, by decide, rfl⟩
  | cmp d r => exact .inr (.inr (.inr (.inr (.inl ⟨d, r, rfl⟩))))
  | neg d => exact .inr (.inl ⟨d, _, rfl, fun h => by simpa using h d⟩)
  | negtc d =>
    refine .inr (.inl ⟨d, _, rfl, fun h => ?_⟩)
    rw [negateTc, rippleAdd_length _ _ _ (by simpa using h d), complement_length]
    exact h d
  | add d r =>
    exact .inr (.inl ⟨d, _, rfl, fun h => by
      rw [rippleAdd_length _ _ _ ((h d).trans (h r).symm)]; exact h d⟩)
  | sub d r => exact .inr (.inr (.inl ⟨d, r, rfl⟩))
  | subtc d r =>
    exact .inr (.inl ⟨d, _, rfl, fun h => by
      rw [subtractTc, rippleAdd_length _ _ _ (by simpa using (h d).trans (h r).symm)]; exact h d⟩)
  | mul d r => exact .inr (.inr (.inr (.inl ⟨d, r, rfl⟩)))
  | tohex r fn => exact .inr (.inr (.inr (.inr (.inr ⟨r, fn, rfl⟩))))

/-- SUB, spelled out (42_arithmetic.md R135). -/
theorem exec_sub (d r : Reg) (s : State) :
    exec (.sub d r) s = .next
      ((s.setV r (flipSign s.limbs (s.getV r))).setV d
        (rippleAdd ((s.setV r (flipSign s.limbs (s.getV r))).getV d)
          (flipSign s.limbs (s.getV r)) 0)).finish := by
  simp [exec, execSub]

/-- MUL, spelled out (42_arithmetic.md R137). -/
theorem exec_mul (d r : Reg) (s : State) :
    exec (.mul d r) s = .next
      ({ s.setV d (mulResult s.params.mulCarry s.limbs (s.getV d) (s.getV r)) with
        movf := productOverflows s.limbs (s.getV d) (s.getV r) } : State).finish := rfl

/-- CMP, spelled out (41_ordering.md R120). -/
theorem exec_cmp (d r : Reg) (s : State) :
    exec (.cmp d r) s = .next
      ({ s with cmp := lexcmp (s.getV d) (s.getV r) } : State).finish := rfl

/-- TOHEX, spelled out (43_serialization.md R150). -/
theorem exec_tohex (r : Reg) (fn : BitVec 8) (s : State) :
    exec (.tohex r fn) s = .next
      ({ s with buf := Memory.writeList s.buf 0 (hexString (s.getV r) (isUpper fn)),
                len := BitVec.ofNat 16 (8 * s.limbs) } : State).finish := rfl

/-- Every command answers a next state. -/
theorem exec_answers (i : Instr) (s : State) : ∃ t, exec i s = .next t := by
  obtain ⟨e, -, -, h⟩ | ⟨d, x, h, -⟩ | ⟨d, r, rfl⟩ | ⟨d, r, rfl⟩ | ⟨d, r, rfl⟩ | ⟨r, fn, rfl⟩ :=
    exec_cases i s
  · exact ⟨_, h⟩
  · exact ⟨_, h⟩
  · exact ⟨_, exec_sub d r s⟩
  · exact ⟨_, exec_mul d r s⟩
  · exact ⟨_, exec_cmp d r s⟩
  · exact ⟨_, exec_tohex r fn s⟩

/-- What no command writes. -/
theorem exec_keeps (i : Instr) (s t : State) (h : exec i s = .next t) :
    t.params = s.params ∧ t.doneIe = s.doneIe ∧ t.errIe = s.errIe ∧ t.scalar = s.scalar ∧
    t.response = s.response ∧ t.schedule = s.schedule ∧ t.draws = s.draws ∧
    t.inFlight = none ∧ t.done = true := by
  obtain ⟨e, -, -, h'⟩ | ⟨d, x, h', -⟩ | ⟨d, r, rfl⟩ | ⟨d, r, rfl⟩ | ⟨d, r, rfl⟩ | ⟨r, fn, rfl⟩ :=
    exec_cases i s
  · rw [h'] at h; cases h; simp
  · rw [h'] at h; cases h; simp
  · rw [exec_sub] at h; cases h; simp
  · rw [exec_mul] at h; cases h; simp
  · rw [exec_cmp] at h; cases h; simp
  · rw [exec_tohex] at h; cases h; simp

end Sys2Proof.Machine
end

