-- ==== Sys2Proof/Laws/Step.lean ====
section
/-! SUPPORT. Laws/Step.lean: what a step can do, said once. -/

namespace Sys2Proof.Machine

/-- Running a command word is running a command, or raising E_ILLEGAL. -/
theorem runCommand_cases (c : Word) (s : State) :
    (∃ i, decode c = .ok i ∧ runCommand c s = exec i s) ∨
    (∃ e, decode c = .error e ∧ runCommand c s = .next (s.recordErr .illegal).finish) := by
  unfold runCommand
  cases h : decode c with
  | ok i => exact .inl ⟨i, rfl, rfl⟩
  | error e => exact .inr ⟨e, rfl, rfl⟩

/-- Every command word answers a next state. -/
theorem runCommand_answers (c : Word) (s : State) : ∃ t, runCommand c s = .next t := by
  obtain ⟨i, -, h⟩ | ⟨e, -, h⟩ := runCommand_cases c s
  · rw [h]; exact exec_answers i s
  · exact ⟨_, h⟩

/-- The unit's turn: it runs the command in flight, or it is idle. -/
theorem unitTurn_cases (s : State) :
    (∃ c, s.inFlight = some c ∧ unitTurn s = runCommand c s) ∨
    (s.inFlight = none ∧ unitTurn s = .next s) := by
  unfold unitTurn
  cases h : s.inFlight with
  | none => exact .inr ⟨rfl, rfl⟩
  | some c => exact .inl ⟨c, rfl, rfl⟩

/-- An access in the step in which the command in flight ends: the access, then the command
(10_state.md R31). -/
theorem hostAndUnitTurn_busy (a : Access) (c : Word) (s t : State) (hc : s.inFlight = some c)
    (h : hostAccess a s = .next t) : hostAndUnitTurn a s = runCommand c t := by
  have hb : s.busy = true := by simp [State.busy, hc]
  simp [hostAndUnitTurn, unitTurn, h, hb, hostAccess_inFlight a s t hb h, hc]

/-- A step takes the next turn, and then the next draw number. -/
theorem step_next_iff (s t : State) :
    step s = .next t ↔ ∃ u, takeTurn (nextTurn s).1 (nextTurn s).2 = .next u ∧ t = u.tick := by
  unfold step afterStep
  cases takeTurn (nextTurn s).1 (nextTurn s).2 with
  | next u => simp [eq_comm]
  | fault f => simp
  | refused r => simp

/-- Taking a turn off the schedule changes nothing else. -/
theorem nextTurn_state (s : State) : ∃ rest, (nextTurn s).2 = { s with schedule := rest } := by
  unfold nextTurn
  split
  · exact ⟨s.schedule, rfl⟩
  · exact ⟨_, rfl⟩

/-- What keeps under a host access and under a command keeps under every turn but reset. -/
theorem takeTurn_invariant (P : State → Prop) (hb : ∀ a s u, P s → hostAccess a s = .next u → P u)
    (hc : ∀ c s u, P s → runCommand c s = .next u → P u) (hr : ∀ s, P s → P s.blockReset)
    (t : Turn) (s u : State) (hs : P s) (h : takeTurn t s = .next u) : P u := by
  have hu : ∀ s u, P s → unitTurn s = .next u → P u := by
    intro s u hs h
    obtain ⟨c, -, h'⟩ | ⟨-, h'⟩ := unitTurn_cases s
    · exact hc c s u hs (h' ▸ h)
    · rw [h'] at h; cases h; exact hs
  cases t with
  | host a => exact hb a s u hs h
  | unit => exact hu s u hs h
  | hostAndUnit a =>
    simp only [takeTurn, hostAndUnitTurn] at h
    split at h
    · rename_i s1 h1
      split at h
      · exact hu s1 u (hb a s s1 hs h1) h
      · cases h; exact hb a s _ hs h1
    · cases h
    · cases h
  | reset =>
    simp only [takeTurn] at h
    cases h
    exact hr s hs

end Sys2Proof.Machine
end

