-- ==== Sys2Proof/Tests/Slice0.lean ====
section
/-! SUPPORT. Tests/Slice0.lean: the model's own tests. Expected results are those of
spec/95_test_vectors.md (the row is named) or of the rule named. The witnesses at the end meet the
hypotheses of the statements. -/

open Sys2Proof Sys2Proof.Machine Sys2Proof.Config Sys2Proof.Claims

namespace Sys2Proof.Tests

/-! ### Helpers -/

/-- A value from its limbs, limb 0 first. -/
def limbsList (xs : List Nat) : Value := xs.map (BitVec.ofNat 32)

/-- Bytes from their numbers. -/
def bytes (xs : List Nat) : List Byte := xs.map (BitVec.ofNat 8)

/-- FWI-128, FWI-256, and FWI-128 in the source's modes, after reset. -/
def s128 : State := State.reset
def s256 : State := State.resetOf { defaultParams with width := fwi256 }
def sSource : State := State.resetOf { defaultParams with decMode := .source, mulCarry := .drop }

/-- A state with a value in one register. -/
def with1 (s : State) (r : Reg) (x : List Nat) : State := s.setV r (limbsList x)

/-- A state with values in V0 and V1. -/
def with2 (s : State) (x y : List Nat) : State := with1 (with1 s 0 x) 1 y

/-- A state with a string or byte buffer in BUF and its length in LEN. -/
def withBuf (s : State) (xs : List Nat) : State :=
  { s with buf := Memory.writeList s.buf 0 (bytes xs), len := BitVec.ofNat 16 xs.length }

/-- A state with a command in flight. -/
def inFlight (s : State) (c : Word) : State := { s with inFlight := some c }

/-- The outcome is a next state of which `f` is true. -/
def answers (o : Host.Outcome State Fault Refusal) (f : State → Bool) : Bool :=
  match o with
  | .next s => f s
  | .fault _ => false
  | .refused _ => false

/-- The word `c`, accepted, leaves register r with the given limbs and no error. -/
def gives (c : Word) (s : State) (r : Reg) (x : List Nat) : Bool :=
  answers (runCommand c s) (fun t => t.getV r == limbsList x && t.err == .none && t.done && !t.busy)

/-- The word `c`, accepted, stops with an error and leaves the registers. -/
def stops (c : Word) (s : State) (e : ErrCode) : Bool :=
  answers (runCommand c s) (fun t => t.err == e && t.done && !t.busy && t.v == s.v && t.buf == s.buf)

/-- The access answers data `v`. -/
def reads (s : State) (off : Nat) (v : Word) : Bool :=
  answers (hostAccess (rd s off) s) (fun t => t.response == .data v)

/-! ### Well-formedness: the ill-formed terms are refused -/

theorem test_wellFormed_ldu_size4 : (Instr.ldu 0 4#8).wellFormed = false := by decide
theorem test_wellFormed_ldu_size3 : (Instr.ldu 0 3#8).wellFormed = true := by decide
theorem test_wellFormed_tohex_case2 : (Instr.tohex 0 2#8).wellFormed = false := by decide
theorem test_wellFormed_tohex_case1 : (Instr.tohex 0 1#8).wellFormed = true := by decide

/-! ### Decoding: words written out from the fields of 30_encoding.md R70 -/

theorem test_decode_clr : decode 0x00000F01#32 = .ok (.clr 15) := by rfl
theorem test_decode_mov : decode 0x00004302#32 = .ok (.mov 3 4) := by rfl
theorem test_decode_ldu : decode 0x00020303#32 = .ok (.ldu 3 2#8) := by rfl
theorem test_decode_lddec : decode 0x00000104#32 = .ok (.lddec 1) := by rfl
theorem test_decode_ldbytes : decode 0x00000205#32 = .ok (.ldbytes 2) := by rfl
theorem test_decode_ldhex : decode 0x00000706#32 = .ok (.ldhex 7) := by rfl
theorem test_decode_cmp : decode 0x00005208#32 = .ok (.cmp 2 5) := by rfl
theorem test_decode_neg : decode 0x00000310#32 = .ok (.neg 3) := by rfl
theorem test_decode_negtc : decode 0x00000511#32 = .ok (.negtc 5) := by rfl
theorem test_decode_add : decode 0x00002112#32 = .ok (.add 1 2) := by rfl
theorem test_decode_sub : decode 0x00001013#32 = .ok (.sub 0 1) := by rfl
theorem test_decode_subtc : decode 0x00003214#32 = .ok (.subtc 2 3) := by rfl
theorem test_decode_mul : decode 0x00003415#32 = .ok (.mul 4 3) := by rfl
theorem test_decode_tohex : decode 0x00015018#32 = .ok (.tohex 5 1#8) := by rfl

/-- Opcodes 0x00 (V-ERR-1) and 0x07 (V-ERR-2) are reserved. -/
theorem test_decode_reserved :
    decode 0x00000000#32 = .error .reservedOpcode ∧ decode 0x00000007#32 = .error .reservedOpcode := by
  decide

/-- V-ERR-3 to V-ERR-6, V-LDU-6: a reserved bit or an unused field is not 0. -/
theorem test_decode_unused_bits :
    decode 0x01000201#32 = .error .nonZeroUnusedBits ∧
    decode 0x00001201#32 = .error .nonZeroUnusedBits ∧
    decode 0x00010012#32 = .error .nonZeroUnusedBits ∧
    decode 0x00020018#32 = .error .nonZeroUnusedBits ∧
    decode 0x00040303#32 = .error .nonZeroUnusedBits := by
  decide

theorem test_decodeTableWord : decodeTableWord 32 0x00015018 = some (.tohex 5 1#8) := by rfl

/-- The text of R85's examples. -/
theorem test_assemble_tohex :
    assemble ['t', 'o', 'h', 'e', 'x', ' ', 'v', '5', ',', ' ', 'u', 'p', 'p', 'e', 'r', ' ', ';', 'x']
      = some 0x00015018#32 := by
  decide

theorem test_assemble_ldu :
    assemble ['l', 'd', 'u', ' ', 'v', '0', ',', '0', 'x', '4', '0'] = some 0x00030003#32 := by
  decide

/-! ### Commands -/

/-- V-CLR-1. -/
theorem test_clr : gives 0x00000201#32 (with1 s128 2 [12345, 0, 0, 0]) 2 [0, 0, 0, 0] = true := by
  decide

/-- V-MOV-1. -/
theorem test_mov : gives 0x00000102#32 (with1 s128 0 [7, 0, 0, 0]) 1 [7, 0, 0, 0] = true := by decide

/-- V-LDU-2. -/
theorem test_ldu_16 :
    gives 0x00010303#32 { s128 with scalar := 0x8877665544332211#64 } 3 [0x2211, 0, 0, 0] = true := by
  decide

/-- V-LDU-7, N = 256. -/
theorem test_ldu_64 :
    gives 0x00030003#32 { s256 with scalar := 0xFFFFFFFFFFFFFFFF#64 } 0
      [0xFFFFFFFF, 0xFFFFFFFF, 0, 0, 0, 0, 0, 0] = true := by
  decide

/-- V-DECX-6. -/
theorem test_lddec_exact :
    gives 0x00000004#32 (withBuf s128 [52, 50, 57, 52, 57, 54, 55, 50, 57, 54]) 0 [0, 1, 0, 0] = true := by
  decide

/-- V-DECS-7. -/
theorem test_lddec_source :
    gives 0x00000004#32 (withBuf sSource [57, 57, 57, 57, 57, 57, 57, 57, 57, 57, 57]) 0
      [0x540BE3FF, 0x0000000B, 0, 0] = true := by
  decide

/-- V-BYT-3. -/
theorem test_ldbytes :
    gives 0x00000105#32 (withBuf s128 [1, 2, 3, 4, 5]) 1 [0x02030405, 1, 0, 0] = true := by decide

/-- V-ERR-10. -/
theorem test_ldbytes_size : stops 0x00000005#32 { s128 with len := 17#16 } .size = true := by decide

/-- V-ERR-7. -/
theorem test_ldhex : stops 0x00000006#32 s128 .unimpl = true := by decide

/-- V-CMP-4. -/
theorem test_cmp_gt :
    answers (runCommand 0x00001008#32 (with2 s128 [1, 0, 0, 0] [0, 1, 0, 0]))
      (fun t => t.statusWord == 0x00000022#32) = true := by
  decide

/-- V-CMP-7. -/
theorem test_cmp_lt :
    answers (runCommand 0x00001008#32 (with2 s128 [0, 0, 0, 0x80000000] [1, 0, 0, 0]))
      (fun t => t.statusWord == 0x00000012#32) = true := by
  decide

/-- V-NEG-1. -/
theorem test_neg :
    gives 0x00000310#32 (with1 s128 3 [5, 0, 0, 0]) 3 [5, 0, 0, 0x80000000] = true := by decide

/-- V-NEGTC-4. -/
theorem test_negtc :
    gives 0x00000011#32 (with1 s128 0 [0, 1, 0, 0]) 0 [0, 0xFFFFFFFF, 0xFFFFFFFF, 0xFFFFFFFF] = true := by
  decide

/-- V-ADD-6. -/
theorem test_add :
    gives 0x00001012#32 (with2 s128 [0xFFFFFFFF, 0, 0xFFFFFFFF, 0] [1, 0xFFFFFFFF, 1, 0]) 0
      [0, 0, 1, 1] = true := by
  decide

/-- V-SUB-1: the argument's register. -/
theorem test_sub_argument :
    gives 0x00001013#32 (with2 s128 [10, 0, 0, 0] [3, 0, 0, 0]) 1 [3, 0, 0, 0x80000000] = true := by
  decide

/-- V-SUB-3. -/
theorem test_sub_self :
    gives 0x00002213#32 (with1 s128 2 [10, 0, 0, 0]) 2 [20, 0, 0, 0] = true := by decide

/-- V-SUBTC-4. -/
theorem test_subtc :
    gives 0x00001014#32 (with2 s128 [0, 0, 1, 0] [1, 0, 0, 0]) 0 [0xFFFFFFFF, 0xFFFFFFFF, 0, 0] = true := by
  decide

/-- V-MULP-10. -/
theorem test_mul_propagate :
    gives 0x00001015#32 (with2 s128 [0xFFFFFFFF, 2, 0, 0] [0xFFFFFFFF, 0, 0, 0]) 0
      [1, 0xFFFFFFFC, 2, 0] = true := by
  decide

/-- V-MULD-10. -/
theorem test_mul_drop :
    gives 0x00001015#32 (with2 sSource [0xFFFFFFFF, 2, 0, 0] [0xFFFFFFFF, 0, 0, 0]) 0
      [1, 0xFFFFFFFC, 1, 0] = true := by
  decide

/-- V-HEX-6. -/
theorem test_tohex_upper :
    answers (runCommand 0x00015018#32 (with1 s128 5 [0x89ABCDEF, 0x01234567, 0, 0]))
      (fun t => t.len == 32#16 && t.buf.map Prod.snd == bytes
        [56, 57, 65, 66, 67, 68, 69, 70, 48, 49, 50, 51, 52, 53, 54, 55,
         48, 48, 48, 48, 48, 48, 48, 48, 48, 48, 48, 48, 48, 48, 48, 48]) = true := by
  decide

/-- R169: E_ILLEGAL before E_UNIMPL (V-ERR-8). -/
theorem test_priority : stops 0x00001006#32 s128 .illegal = true := by decide

/-! ### The host interface -/

/-- V-BUS-5, V-BUS-6. -/
theorem test_cfg : reads s128 0 0x10200080#32 = true ∧ reads s256 0 0x10200100#32 = true := by decide

/-- STATUS of an idle block: ERR = 5, CMP = LT, MOVF and DONE (10_state.md R29, R33). -/
theorem test_status_idle :
    reads { s128 with err := .digit, cmp := .lt, movf := true, done := true } 0x008 0x00000516#32 = true := by
  decide

/-- A lone SCALAR_LO write keeps SCALAR_HI (10_state.md R38; program P2). -/
theorem test_scalar_lo :
    answers (hostAccess (wr s128 0x018 9#32) { s128 with scalar := 0x8877665544332211#64 })
      (fun t => t.scalar == 0x8877665500000009#64) = true := by
  decide

/-- V-BUS-9. -/
theorem test_buf_packing : reads (withBuf s128 [0x31, 0x32, 0x33, 0x34]) 0x100 0x34333231#32 = true := by
  decide

/-- V-BUS-7. -/
theorem test_limb_above_L : reads (with1 s128 0 [1, 2, 3, 4]) 0x410 0#32 = true := by decide

/-- V-BUS-1. -/
theorem test_narrow_write :
    answers (hostAccess (.write 0x010 2 9#32) s128)
      (fun t => t.response == .writeError && t.len == 0#16 && t.err == .none) = true := by
  decide

/-- V-ERR-12. -/
theorem test_discarded :
    answers (hostAccess (wr s128 0x00C 1#32) { s128 with err := .digit })
      (fun t => !t.busy && !t.done && t.err == .digit) = true := by
  decide

/-- V-ERR-16: the write of LEN is ignored. -/
theorem test_busy_write :
    answers (hostAccess (wr s128 0x010 9#32) (inFlight { s128 with len := 4#16 } 0x00001015#32))
      (fun t => t.busy && t.len == 4#16 && t.err == .busy) = true := by
  decide

/-- V-IRQ-3: the ERR term alone drives the line. -/
theorem test_irq :
    ({ s128 with errIe := true, err := .unimpl, done := true } : State).irq = true ∧
    ({ s128 with errIe := true, done := true } : State).irq = false := by
  decide

/-- V-RST-1. -/
theorem test_reset :
    answers (step { inFlight (with1 s128 2 [5, 0, 0, 0]) 0x00000201#32 with schedule := [.reset] })
      (fun t => !t.busy && !t.done && t.getV 2 == limbsList [0, 0, 0, 0] && !t.irq) = true := by
  decide

/-- The word placed by `withFetchWord` runs in the very next step, with other turns pending too. -/
theorem test_withFetchWord :
    answers (step ({ with1 s128 3 [5, 0, 0, 0] with schedule := [.reset] }.withFetchWord 32 0x310))
      (fun t => t.getV 3 == limbsList [5, 0, 0, 0x80000000] && t.schedule == [.reset]) = true := by
  decide

/-! ### Witnesses: for every statement with hypotheses, concrete inputs that meet them all -/

/-- The string "340282366920938463463374607431768211456", 2^128 (V-DECX-10). -/
def str2Pow128 : List Nat :=
  [51, 52, 48, 50, 56, 50, 51, 54, 54, 57, 50, 48, 57, 51, 56, 52, 54, 51, 52, 54, 51, 51, 55, 52,
   54, 48, 55, 52, 51, 49, 55, 54, 56, 50, 49, 49, 52, 53, 54]

/-- 45 times '1' (V-DECS-11). -/
def strOnes : List Nat := List.replicate 45 49

/-- "12a4" (V-DECX-11). -/
def str12a4 : List Nat := [49, 50, 97, 52]

theorem witness_DecodeEncodeRoundTrip :
    (Instr.ldu 15 3#8).wellFormed = true ∧ (Instr.tohex 15 1#8).wellFormed = true := by decide

theorem witness_EncodeDecodeRoundTrip : decode 0x00010018#32 = .ok (.tohex 0 1#8) := by rfl

theorem witness_DecoderIsTheOpcodeMap :
    (⟨0xFFFCF0FF#32, 0x00000003#32, fun d _ n => .ldu d n⟩ : MapRow) ∈ opcodeMap ∧
    0x00030F03#32 &&& 0xFFFCF0FF#32 = 0x00000003#32 ∧ illegalWord 0x00040003#32 := by
  refine ⟨List.mem_cons_of_mem _ (List.mem_cons_of_mem _ List.mem_cons_self), by decide, ?_⟩
  unfold illegalWord
  decide

theorem witness_IllegalWordRaisesIllegal : illegalWord 0x00000000#32 ∧ illegalWord 0xFFFFFFFF#32 := by
  unfold illegalWord
  decide

theorem witness_AssemblerReadsWhatItWrites : (Instr.ldu 0 0#8).wellFormed = true := by decide

theorem witness_StepRunsTheDecodedCommand :
    (inFlight s128 0x00000F01#32).inFlight = some 0x00000F01#32 ∧
    decode 0x00000F01#32 = .ok (.clr 15) ∧ (inFlight s128 0x00000F01#32).schedule = [] ∧
    ∃ t, exec (.clr 15) (inFlight s128 0x00000F01#32) = .next t :=
  ⟨rfl, rfl, rfl, _, rfl⟩

theorem witness_StepRunsTheDecodedCommand_scheduled :
    decode 0x00000F01#32 = .ok (.clr 15) ∧
    ({ inFlight s128 0x00000F01#32 with schedule := [.unit, .reset] } : State).schedule
      = .unit :: [.reset] ∧
    decodeTableWord 32 0x00000F01 = some (.clr 15) ∧
    ∃ t, exec (.clr 15) (inFlight { s128 with schedule := [.reset] } 0x00000F01#32) = .next t :=
  ⟨rfl, rfl, rfl, _, rfl⟩

/-- Size codes 0 and 3 are the ends of the legal range, 4 and 255 those of the illegal one. -/
theorem witness_LduLoadsTheLowBitsOfScalar :
    0 < 4 ∧ 3 < 4 ∧ (4 ≤ 4 ∧ 4 < 256) ∧ (4 ≤ 255 ∧ 255 < 256) := by decide

theorem witness_LduSourceLoopWritesTheSameLimbs :
    3 ≤ 3 ∧ (64 = 8 ∨ 64 = 16 ∨ 64 = 32 ∨ 64 = 64) ∧ 2 ^ 64 - 1 < 2 ^ 64 := by decide

theorem witness_LddecExactValueOrOverflow_fits :
    (withBuf s128 [48, 55]).params.decMode = .exact ∧ (withBuf s128 [48, 55]).len.toNat ≤ 256 ∧
    allDigits (withBuf s128 [48, 55]) ∧
    decimalValue (withBuf s128 [48, 55]) < 2 ^ (32 * (withBuf s128 [48, 55]).limbs) := by
  refine ⟨by decide, by decide, ?_, by decide⟩
  unfold allDigits
  decide

theorem witness_LddecExactValueOrOverflow_overflows :
    (withBuf s128 str2Pow128).params.decMode = .exact ∧ (withBuf s128 str2Pow128).len.toNat ≤ 256 ∧
    allDigits (withBuf s128 str2Pow128) ∧
    2 ^ (32 * (withBuf s128 str2Pow128).limbs) ≤ decimalValue (withBuf s128 str2Pow128) := by
  refine ⟨by decide, by decide, ?_, by decide⟩
  unfold allDigits
  decide

theorem witness_BufferChecksRaiseSizeThenDigit :
    256 < ({ s128 with len := 257#16 } : State).len.toNat ∧
    ((withBuf s128 str12a4).len.toNat ≤ 256 ∧ ¬ allDigits (withBuf s128 str12a4)) ∧
    4 * s128.limbs < ({ s128 with len := 17#16 } : State).len.toNat := by
  refine ⟨by decide, ⟨by decide, ?_⟩, by decide⟩
  unfold allDigits
  decide

theorem witness_LddecSourceFollowsTheSteps_fits :
    (withBuf sSource [55]).params.decMode = .source ∧ (withBuf sSource [55]).len.toNat ≤ 256 ∧
    allDigits (withBuf sSource [55]) ∧
    sourceSteps (withBuf sSource [55]).limbs (digitsFromTheRight (withBuf sSource [55])) [] 0 1
      = some [7] ∧
    decimalValue (withBuf sSource [55]) ≤ 2 ^ 32 - 1 := by
  refine ⟨by decide, by decide, ?_, by decide, by decide⟩
  unfold allDigits
  decide

theorem witness_LddecSourceFollowsTheSteps_overflows :
    (withBuf sSource strOnes).params.decMode = .source ∧ (withBuf sSource strOnes).len.toNat ≤ 256 ∧
    allDigits (withBuf sSource strOnes) ∧
    sourceSteps (withBuf sSource strOnes).limbs (digitsFromTheRight (withBuf sSource strOnes)) [] 0 1
      = none := by
  refine ⟨by decide, by decide, ?_, by decide⟩
  unfold allDigits
  decide

theorem witness_LdbytesReadsBigEndian :
    ({ s128 with len := 16#16 } : State).len.toNat ≤ 4 * s128.limbs ∧
    4 * s128.limbs < ({ s128 with len := 17#16 } : State).len.toNat := by decide

theorem witness_wf : State.wf s128 ∧ State.wf s256 ∧ State.wf sSource := by decide

theorem witness_CmpIsTheFirstDifferingLimb :
    State.wf (with2 s128 [1, 0, 0, 0] [0, 1, 0, 0]) ∧
    (limbAt ((with2 s128 [1, 0, 0, 0] [0, 1, 0, 0]).getV 1) 0).toNat
      < (limbAt ((with2 s128 [1, 0, 0, 0] [0, 1, 0, 0]).getV 0) 0).toNat := by decide

theorem witness_CmpAgreesWithValuesOnOneLimb :
    State.wf (with2 s128 [9, 9, 9, 5] [9, 9, 9, 7]) ∧ 3 < (with2 s128 [9, 9, 9, 5] [9, 9, 9, 7]).limbs ∧
    (∀ j < (with2 s128 [9, 9, 9, 5] [9, 9, 9, 7]).limbs,
      limbAt ((with2 s128 [9, 9, 9, 5] [9, 9, 9, 7]).getV 0) j
        = limbAt ((with2 s128 [9, 9, 9, 5] [9, 9, 9, 7]).getV 1) j ↔ j ≠ 3) ∧
    ∃ t, exec (.cmp 0 1) (with2 s128 [9, 9, 9, 5] [9, 9, 9, 7]) = .next t :=
  ⟨by decide, by decide, by decide, _, rfl⟩

/-- The hypothesis of NegFlipsTheTopBit, NegtcNegatesModulo, AddIsTheRippleCarrySum,
SubFlipsItsArgumentAndAdds (both of its cases), SubtcSubtractsModulo and SameRegisterResults. -/
theorem witness_arithmetic :
    State.wf (with2 s128 [0xFFFFFFFF, 0xFFFFFFFF, 0xFFFFFFFF, 0xFFFFFFFF] [1, 0, 0, 0x80000000]) ∧
    (0 : Reg) ≠ 1 := by decide

theorem witness_MulPropagateIsTheProduct : State.wf s256 ∧ s256.params.mulCarry = .propagate := by
  decide

theorem witness_MulDropSumsColumnsWithoutCarry : State.wf sSource ∧ sSource.params.mulCarry = .drop := by
  decide

theorem witness_MulByZeroAndOneInBothModes :
    State.wf (with2 sSource [7, 8, 9, 10] [1, 0, 0, 0]) ∧
    val ((with2 sSource [7, 8, 9, 10] [1, 0, 0, 0]).getV 1) = 1 ∧
    val ((with2 sSource [7, 8, 9, 10] [1, 0, 0, 0]).getV 2) = 0 ∧
    ∃ t, exec (.mul 0 1) (with2 sSource [7, 8, 9, 10] [1, 0, 0, 0]) = .next t :=
  ⟨by decide, by decide, by decide, _, rfl⟩

theorem witness_SignedReadingOfAddAndSubtc :
    State.wf (with2 s128 [0, 0, 0, 0x80000000] [1, 0, 0, 0]) ∧
    (∃ t, exec (.add 0 1) (with2 s128 [0, 0, 0, 0x80000000] [1, 0, 0, 0]) = .next t) ∧
    ∃ u, exec (.subtc 0 1) (with2 s128 [0, 0, 0, 0x80000000] [1, 0, 0, 0]) = .next u :=
  ⟨by decide, ⟨_, rfl⟩, _, rfl⟩

theorem witness_TohexWritesTheDigits :
    State.wf (with1 s128 5 [0xABCDEF09, 0, 0, 0]) ∧ 1 < 2 ∧ 2 ≤ 255 ∧ 255 < 256 ∧ (15 : Reg) ≠ 0 ∧
    3 < (with1 s128 5 [0xABCDEF09, 0, 0, 0]).limbs ∧
    10 = (limbAt ((with1 s128 5 [0xABCDEF09, 0, 0, 0]).getV 5) 0).toNat / 2 ^ (4 * (7 - 0)) % 16 ∧
    9 = (limbAt ((with1 s128 5 [0xABCDEF09, 0, 0, 0]).getV 5) 0).toNat / 2 ^ (4 * (7 - 7)) % 16 := by
  decide

theorem witness_OneRegisterCommandsFrame :
    Instr.ldu 3 2#8 ∈ [Instr.clr 3, .mov 3 4, .ldu 3 2#8, .neg 3, .negtc 3, .add 3 4, .subtc 3 4] ∧
    (∃ t, exec (.ldu 3 2#8) s128 = .next t) ∧ (4 : Reg) ≠ 3 :=
  ⟨by decide, ⟨_, rfl⟩, by decide⟩

theorem witness_BufferCommandsFrame :
    Instr.ldhex 3 ∈ [Instr.lddec 3, .ldbytes 3, .ldhex 3] ∧ (∃ t, exec (.ldhex 3) s128 = .next t) ∧
    (4 : Reg) ≠ 3 :=
  ⟨by decide, ⟨_, rfl⟩, by decide⟩

theorem witness_SubMulCmpFrame :
    (∃ t, exec (.sub 3 4) s128 = .next t) ∧ (∃ t, exec (.mul 3 4) s128 = .next t) ∧
    (∃ t, exec (.cmp 3 4) s128 = .next t) ∧ (5 : Reg) ≠ 3 ∧ (5 : Reg) ≠ 4 :=
  ⟨⟨_, rfl⟩, ⟨_, rfl⟩, ⟨_, rfl⟩, by decide, by decide⟩

theorem witness_TohexFrame :
    State.wf s128 ∧ (∃ t, exec (.tohex 3 1#8) s128 = .next t) ∧ ¬ 32 < 32 * s128.limbs / 4 :=
  ⟨by decide, ⟨_, rfl⟩, by decide⟩

theorem witness_EveryCommandEndsIdleAndDone :
    (inFlight s128 0x00000006#32).busy = true ∧ (inFlight s128 0x00000006#32).schedule = [] ∧
    ({ inFlight s128 0x00000006#32 with schedule := [.unit] } : State).schedule.head? = some .unit := by
  decide

theorem witness_FailedCommandWritesNothing :
    ∃ t, runCommand 0x00000006#32 s128 = .next t ∧ t.err ≠ s128.err := ⟨_, rfl, by decide⟩

theorem witness_FirstErrorWins :
    ({ s128 with err := .digit } : State).err ≠ .none ∧
    (∃ t, runCommand 0x00000006#32 { s128 with err := .digit } = .next t) ∧
    (∃ t, hostAccess (wr s128 0x010 1#32) (inFlight { s128 with err := .digit } 1#32) = .next t) ∧
    ∀ v, wr s128 0x010 1#32 ≠ wr (inFlight { s128 with err := .digit } 1#32) 0x008 v
      ∨ v.getLsbD 31 = false := by
  refine ⟨by decide, ⟨_, rfl⟩, ⟨_, rfl⟩, fun v => .inl ?_⟩
  intro h
  injection h with h1
  revert h1
  decide

theorem witness_MovfIsWrittenOnlyByMul :
    (∃ t, exec (.mul 0 1) s128 = .next t) ∧ (∃ t, exec (.add 0 1) s128 = .next t) ∧
    ∀ d r, Instr.add 0 1 ≠ .mul d r :=
  ⟨⟨_, rfl⟩, ⟨_, rfl⟩, by intro d r h; cases h⟩

theorem witness_CmpFieldIsWrittenOnlyByCmp :
    (∃ t, exec (.mul 0 1) s128 = .next t) ∧ (∀ d r, Instr.mul 0 1 ≠ .cmp d r) ∧
    (∃ t, hostAccess (.read 0x008 4) s128 = .next t) ∧ s128.busy = false :=
  ⟨⟨_, rfl⟩, (by intro d r h; cases h), ⟨_, rfl⟩, by decide⟩

theorem witness_OnlyTheNamedRegistersAreWritten :
    (∃ t, exec (.neg 0) s128 = .next t ∧ t.getV 0 ≠ s128.getV 0) ∧
    ∃ t, hostAccess (.write 0x400 4 9#32) s128 = .next t :=
  ⟨⟨_, rfl, by decide⟩, _, rfl⟩

theorem witness_HostCannotDisturbACommand :
    (inFlight s128 0x00001012#32).inFlight = some 0x00001012#32 ∧
    (∃ t, hostAccess (wr s128 0x010 9#32) (inFlight s128 0x00001012#32) = .next t) ∧
    ∃ u, runCommand 0x00001012#32 (inFlight s128 0x00001012#32) = .next u :=
  ⟨rfl, ⟨_, rfl⟩, _, rfl⟩

/-- A host read while a command stays in flight. -/
def sReading : State := { inFlight s128 0x00001012#32 with schedule := [.host (rd s128 0x010)] }

theorem witness_NoWriteIsVisibleBeforeTheEnd :
    sReading.busy = true ∧ ∃ t, step sReading = .next t ∧ t.busy = true := ⟨rfl, _, rfl, rfl⟩

theorem witness_CmdWriteIssuesOrNot :
    (inFlight s128 1#32).busy = true ∧
    (({ s128 with err := .digit } : State).busy = false ∧ ({ s128 with err := .digit } : State).err ≠ .none) ∧
    (s128.busy = false ∧ s128.err = .none) := by decide

theorem witness_CommandsWaitForErrorClear :
    ({ s128 with err := .digit, schedule := [.host (wr s128 0x00C 1#32)] } : State).busy = false ∧
    ({ s128 with err := .digit, schedule := [.host (wr s128 0x00C 1#32)] } : State).err ≠ .none ∧
    ({ s128 with err := .digit, schedule := [.host (wr s128 0x00C 1#32)] } : State).schedule
      = .host (wr { s128 with err := .digit, schedule := [.host (wr s128 0x00C 1#32)] } 0x00C 1#32)
        :: [] := by
  decide

/-- The first and the last word of the BUF window. -/
theorem witness_BusyRejectsDataWrites :
    (inFlight s128 1#32).busy = true ∧
    (0x100 ≤ 0x100 ∧ 0x100 < 0x200 ∧ 0x100 % 4 = 0) ∧
    (0x100 ≤ 0x1FC ∧ 0x1FC < 0x200 ∧ 0x1FC % 4 = 0) ∧
    (inFlight s128 1#32).inFlight = some 1#32 ∧
    ∃ u, runCommand 1#32 (inFlight s128 1#32) = .next u :=
  ⟨by decide, by decide, by decide, rfl, _, rfl⟩

/-- Offsets at the ends of the ranges of ReadsWhileBusyAndIdle; a busy and an idle state. -/
theorem witness_ReadsWhileBusyAndIdle :
    (inFlight s128 1#32).busy = true ∧ s128.busy = false ∧ (0x000 < 0x800 ∧ 0x000 % 4 = 0) ∧
    (0x010 < 0x800 ∧ 0x010 % 4 = 0) ∧ (0x7FC < 0x800 ∧ 0x7FC % 4 = 0 ∧ 0x400 ≤ 0x7FC) ∧
    (0x1FC < 0x800 ∧ 0x1FC % 4 = 0 ∧ 0x100 ≤ 0x1FC ∧ 0x1FC < 0x200) ∧
    reservedOffset 0x014 ∧ reservedOffset 0x020 ∧ reservedOffset 0x0FC ∧ reservedOffset 0x200 ∧
    reservedOffset 0x3FC ∧ ¬ reservedOffset 0x01C ∧ ¬ reservedOffset 0x100 ∧ ¬ reservedOffset 0x400 := by
  unfold reservedOffset
  decide

/-- V-BUS-1 and V-BUS-2, and the last byte of the space. -/
theorem witness_OtherAccessesAreBusErrors :
    (s128.params.fwiBase ≤ 0x010 ∧ 0x010 < s128.params.fwiBase + 0x800 ∧
      (2 ≠ 4 ∨ (0x010 - s128.params.fwiBase) % 4 ≠ 0)) ∧
    (s128.params.fwiBase ≤ 0x7FF ∧ 0x7FF < s128.params.fwiBase + 0x800 ∧
      (4 ≠ 4 ∨ (0x7FF - s128.params.fwiBase) % 4 ≠ 0)) := by
  decide

theorem witness_ReservedSpaceReadsZero :
    (reservedOffset 0x014 ∧ 0x014 % 4 = 0) ∧ (reservedOffset 0x3FC ∧ 0x3FC % 4 = 0) ∧
    s128.busy = false := by
  unfold reservedOffset
  decide

theorem witness_BufWindowPacksLittleEndian : 0 < 64 ∧ 63 < 64 ∧ s128.busy = false := by decide

theorem witness_ValueWindowIsReadOnly :
    15 < 16 ∧ s128.busy = false ∧ 3 < s128.limbs ∧ ¬ 4 < s128.limbs := by decide

theorem witness_ReadsHaveNoSideEffect :
    (∃ t, hostAccess (.read 0x008 4) s128 = .next t) ∧ ∃ t, hostAccess (.read 0x009 1) s128 = .next t :=
  ⟨⟨_, rfl⟩, _, rfl⟩

theorem witness_DataRegisterWrites : s128.busy = false := by decide

/-- A command in flight and one turn to come. -/
def sClearing (u : Turn) : State := { inFlight s128 0x00001012#32 with schedule := [u] }

/-- A CMD write that is discarded. -/
def sDiscarding : State :=
  { s128 with err := .digit, schedule := [.host (wr s128 0x00C 1#32)] }

theorem witness_DoneSurvivesAWriteInTheSameStep :
    (∀ a ∈ [wr s128 0x008 2#32, wr s128 0x00C 1#32, wr s128 0x010 9#32, .read 0x000 4, .read 0x7FF 1],
      Turn.inside (sClearing (.hostAndUnit a)).params (.hostAndUnit a) = true ∧
      (sClearing (.hostAndUnit a)).schedule = .hostAndUnit a :: []) ∧
    (∃ t, step (sClearing (.host (wr (sClearing .unit) 0x008 2#32))) = .next t) ∧
    (∃ t, step (sClearing .unit) = .next t) ∧ (∀ u, (sClearing u).busy = true) ∧
    sDiscarding.busy = false ∧ sDiscarding.err ≠ .none ∧ ∃ t, step sDiscarding = .next t :=
  ⟨by decide, ⟨_, rfl⟩, ⟨_, rfl⟩, fun _ => rfl, by decide, by decide, _, rfl⟩

theorem witness_CfgIsConstant : ∃ t, step s128 = .next t := ⟨_, rfl⟩

theorem witness_ResetEventRestoresResetValues :
    ({ inFlight s128 1#32 with schedule := [.reset] } : State).schedule = .reset :: [] := by decide

theorem witness_EveryStepKeepsTheInvariant :
    State.wf (inFlight (with1 s128 5 [1, 2, 3, 4]) 0x00005018#32) ∧
    ∃ t, step (inFlight (with1 s128 5 [1, 2, 3, 4]) 0x00005018#32) = .next t :=
  ⟨by decide, _, rfl⟩

theorem witness_OnlyOutsideAccessesStop :
    (∀ u ∈ sReading.schedule.head?, Turn.inside sReading.params u = true) ∧
    ∃ f, step { s128 with schedule := [.host (.read 0x800 4)] } = .fault f :=
  ⟨by decide, _, rfl⟩

end Sys2Proof.Tests
end

section
/-! Proofs of the statements about the block's state (10_state.md): what a command, a host access and
a step change and what they leave unchanged. -/

namespace Sys2Proof.Machine

open Sys2Proof.Config Sys2Proof.Claims

/-! ### Commands -/

/-- What a command does to ERR, MOVF and CMP: it leaves ERR, or its whole effect is that of an error
(60_exceptions.md R167); only MUL writes MOVF (10_state.md R32) and only CMP writes CMP (R33). -/
theorem exec_status {i : Instr} {s t : State} (h : exec i s = .next t) :
    (t.err = s.err ∨ ∃ e, e ≠ .none ∧ e ≠ .busy ∧ t = (s.recordErr e).finish) ∧
    ((∀ d r, i ≠ .mul d r) → t.movf = s.movf) ∧ ((∀ d r, i ≠ .cmp d r) → t.cmp = s.cmp) := by
  obtain ⟨e, hn, hb, h'⟩ | ⟨d, x, h', -⟩ | ⟨d, r, rfl⟩ | ⟨d, r, rfl⟩ | ⟨d, r, rfl⟩ | ⟨r, fn, rfl⟩ :=
    exec_cases i s
  · rw [h'] at h; cases h; exact ⟨.inr ⟨e, hn, hb, rfl⟩, fun _ => rfl, fun _ => rfl⟩
  · rw [h'] at h; cases h; exact ⟨.inl rfl, fun _ => rfl, fun _ => rfl⟩
  · rw [exec_sub] at h; cases h; exact ⟨.inl rfl, fun _ => rfl, fun _ => rfl⟩
  · rw [exec_mul] at h; cases h; exact ⟨.inl rfl, fun hi => absurd rfl (hi d r), fun _ => rfl⟩
  · rw [exec_cmp] at h; cases h; exact ⟨.inl rfl, fun _ => rfl, fun hi => absurd rfl (hi d r)⟩
  · rw [exec_tohex] at h; cases h; exact ⟨.inl rfl, fun _ => rfl, fun _ => rfl⟩

/-- MOVF after MUL (10_state.md R32). -/
theorem exec_mul_movf {d r : Reg} {s t : State} (h : exec (.mul d r) s = .next t) :
    t.movf = productOverflows s.limbs (s.getV d) (s.getV r) := by
  rw [exec_mul] at h; cases h; rfl

/-- A command that ends by writing one register leaves every other. -/
theorem getV_finish_setV_other (s : State) {d q : Reg} (x : Value) (h : q ∉ [d]) :
    (s.setV d x).finish.getV q = s.getV q := by
  rw [State.finish_getV, State.getV_setV_other s x (by simpa [eq_comm] using h)]

/-- A command leaves every register that 10_state.md R24 does not name for it. -/
theorem exec_keeps_other_registers {i : Instr} {s t : State} {q : Reg} (h : exec i s = .next t)
    (hq : q ∉ writtenRegs i) : t.getV q = s.getV q := by
  cases i with
  | lddec d =>
    obtain ⟨-, h'⟩ | ⟨-, -, h'⟩ | ⟨-, -, -, h'⟩ | ⟨x, -, -, -, h'⟩ := execLddec_cases d s <;>
      cases h'.symm.trans h
    · rfl
    · rfl
    · rfl
    · exact getV_finish_setV_other s _ hq
  | ldbytes d =>
    obtain ⟨-, h'⟩ | ⟨-, h'⟩ := execLdbytes_cases d s <;> cases h'.symm.trans h
    · rfl
    · exact getV_finish_setV_other s _ hq
  | sub d r =>
    rw [exec_sub] at h
    cases h
    simp only [writtenRegs, List.mem_cons, List.not_mem_nil, or_false, not_or] at hq
    obtain ⟨hqd, hqr⟩ := hq
    rw [State.finish_getV, State.getV_setV_other _ _ (Ne.symm hqd),
      State.getV_setV_other _ _ (Ne.symm hqr)]
  | mul d r => rw [exec_mul] at h; cases h; exact getV_finish_setV_other s _ hq
  | ldhex _ | cmp _ _ | tohex _ _ => cases h; rfl
  | clr _ | mov _ _ | ldu _ _ | neg _ | negtc _ | add _ _ | subtc _ _ =>
    cases h; exact getV_finish_setV_other s _ hq

/-! ### Command words -/

/-- What no command word writes. -/
theorem runCommand_keeps_params {c : Word} {s t : State} (h : runCommand c s = .next t) :
    t.params = s.params := by
  obtain ⟨i, -, h'⟩ | ⟨e, -, h'⟩ := runCommand_cases c s
  · exact (exec_keeps i s t (h' ▸ h)).1
  · rw [h'] at h; cases h; rfl

/-- The outcome is a next state in which no command is in flight and DONE is 1. -/
def endsIdleAndDone (o : Host.Outcome State Fault Refusal) : Prop :=
  ∃ t, o = .next t ∧ t.busy = false ∧ t.done = true

/-- Every command word ends with BUSY 0 and DONE 1 (10_state.md R30, R31). -/
theorem runCommand_ends (c : Word) (s : State) : endsIdleAndDone (runCommand c s) := by
  obtain ⟨i, -, h⟩ | ⟨e, -, h⟩ := runCommand_cases c s
  · obtain ⟨t, ht⟩ := exec_answers i s
    obtain ⟨-, -, -, -, -, -, -, hf, hd⟩ := exec_keeps i s t ht
    exact ⟨t, h.trans ht, by simp [State.busy, hf], hd⟩
  · exact ⟨_, h, rfl, rfl⟩

/-- No command word changes an ERR that is not 0 (10_state.md R34). -/
theorem runCommand_keeps_err {c : Word} {s t : State} (hs : s.err ≠ .none)
    (h : runCommand c s = .next t) : t.err = s.err := by
  obtain ⟨i, -, h'⟩ | ⟨e, -, h'⟩ := runCommand_cases c s
  · obtain ⟨he | ⟨e, -, -, rfl⟩, -⟩ := exec_status (h' ▸ h)
    · exact he
    · simp [hs]
  · rw [h'] at h; cases h; simp [hs]

/-! ### The life of a command -/

theorem State.whenIdle_idle {s : State} (t : State) (h : s.busy = false) : s.whenIdle t = t := by
  simp [State.whenIdle, h]

theorem State.issue_busy {s : State} (c : Word) (h : s.busy = true) : s.issue c = s.raiseBusy := by
  simp [State.issue, h]

theorem State.issue_discarded {s : State} (c : Word) (h : s.busy = false) (he : s.err ≠ .none) :
    s.issue c = s := by
  simp [State.issue, h, he]

theorem State.issue_accepted {s : State} (c : Word) (h : s.busy = false) (he : s.err = .none) :
    s.issue c = { s with inFlight := some c } := by
  simp [State.issue, h, he]

/-- A STATUS write, field by field (10_state.md R35). -/
theorem State.writeStatus_eq (s : State) (v : Word) :
    s.writeStatus v = { s with done := s.done && !v.getLsbD 1,
                               err := if v.getLsbD 31 = true then .none else s.err } := by
  unfold State.writeStatus
  cases v.getLsbD 1 <;> cases v.getLsbD 31 <;> simp [State.clearDone, State.clearErr]

/-! ### Host accesses -/

/-- What no host access changes. -/
theorem hostAccess_keeps {a : Access} {s t : State} (h : hostAccess a s = .next t) :
    t.params = s.params ∧ t.v = s.v ∧ t.movf = s.movf ∧ t.cmp = s.cmp ∧
    t.schedule = s.schedule ∧ t.draws = s.draws := by
  obtain h' | ⟨x, h'⟩ | ⟨off, v, -, -, -, h'⟩ := hostAccess_cases a s
  · rw [h'] at h; cases h
  · rw [h'] at h; cases h; exact ⟨rfl, rfl, rfl, rfl, rfl, rfl⟩
  · rw [h'] at h; cases h
    obtain ⟨hp, hv, hm, hc, -, hs, hd⟩ := writePort_keeps s (portOf off) v
    exact ⟨hp, hv, hm, hc, hs, hd⟩

/-- What no host access changes while a command is in flight (20_memory.md R63). -/
theorem hostAccess_keeps_busy {a : Access} {s t : State} (hb : s.busy = true)
    (h : hostAccess a s = .next t) :
    t.buf = s.buf ∧ t.len = s.len ∧ t.scalar = s.scalar ∧ t.inFlight = s.inFlight := by
  obtain h' | ⟨x, h'⟩ | ⟨off, v, -, -, -, h'⟩ := hostAccess_cases a s
  · rw [h'] at h; cases h
  · rw [h'] at h; cases h; exact ⟨rfl, rfl, rfl, rfl⟩
  · rw [h'] at h; cases h; exact writePort_busy s (portOf off) v hb

/-- Only STATUS is at offset 8 (20_memory.md R51). -/
theorem portOf_eq_status {off : Nat} (h : portOf off = .status) : off = 0x008 := by
  unfold portOf at h
  split_ifs at h
  assumption

/-- A host write leaves an ERR that is not 0, but for a STATUS write with bit 31 = 1
(10_state.md R34). -/
theorem writePort_keeps_err {s : State} {p : Port} {v : Word} (hs : s.err ≠ .none)
    (h : p = .status → v.getLsbD 31 = false) : (s.writePort p v).err = s.err := by
  cases p with
  | status =>
    simp only [State.writePort, State.writeStatus_eq, h rfl, Bool.false_eq_true, if_false]
  | cfg | ctrl | limb _ _ | reserved => rfl
  | cmd =>
    simp only [State.writePort, State.issue]
    split <;> simp [hs]
  | len | scalarLo | scalarHi | bufWord _ =>
    simp only [State.writePort, State.whenIdle]
    split <;> simp [hs]

/-- A host access inside the register space is answered (20_memory.md R50, R52). -/
theorem hostAccess_answers {a : Access} {s : State}
    (h : Turn.inside s.params (.hostAndUnit a) = true) : ∃ t, hostAccess a s = .next t := by
  cases a with
  | read addr bytes =>
    simp only [Turn.inside] at h
    simp only [hostAccess, h, if_true]
    split <;> exact ⟨_, rfl⟩
  | write addr bytes v =>
    simp only [Turn.inside] at h
    simp only [hostAccess, h, if_true]
    split <;> exact ⟨_, rfl⟩

/-- LEN takes the low 16 bits of what is written to an idle block (10_state.md R37). -/
theorem hostAccess_wr_len {s : State} (hb : s.busy = false) (v : Word) :
    hostAccess (wr s 0x010 v) s =
      .next { s with len := BitVec.ofNat 16 (v.toNat % 2 ^ 16), response := .written } := by
  have hv : v.extractLsb' 0 16 = BitVec.ofNat 16 (v.toNat % 2 ^ 16) :=
    BitVec.eq_of_toNat_eq (by simp)
  refine (hostAccess_write_word s 0x010 v (by decide) (by decide)).trans ?_
  rw [show portOf 0x010 = .len from rfl, State.writePort, State.whenIdle_idle _ hb, hv]

/-- A write of SCALAR_LO to an idle block keeps the high half (10_state.md R38). -/
theorem hostAccess_wr_scalarLo {s : State} (hb : s.busy = false) (v : Word) :
    hostAccess (wr s 0x018 v) s =
      .next { s with scalar := s.scalar.extractLsb' 32 32 ++ v, response := .written } := by
  refine (hostAccess_write_word s 0x018 v (by decide) (by decide)).trans ?_
  rw [show portOf 0x018 = .scalarLo from rfl, State.writePort, State.whenIdle_idle _ hb]

/-- A write of SCALAR_HI to an idle block keeps the low half (10_state.md R38). -/
theorem hostAccess_wr_scalarHi {s : State} (hb : s.busy = false) (v : Word) :
    hostAccess (wr s 0x01C v) s =
      .next { s with scalar := v ++ s.scalar.extractLsb' 0 32, response := .written } := by
  refine (hostAccess_write_word s 0x01C v (by decide) (by decide)).trans ?_
  rw [show portOf 0x01C = .scalarHi from rfl, State.writePort, State.whenIdle_idle _ hb]

/-! ### A command does not see the host interface -/

/-- The state with the host interface of `h`: CTRL, DONE, ERR and the last answer. -/
def State.withInterface (s h : State) : State :=
  { s with doneIe := h.doneIe, errIe := h.errIe, done := h.done, err := h.err,
           response := h.response }

@[simp] theorem State.withInterface_params (s h : State) :
    (s.withInterface h).params = s.params := rfl
@[simp] theorem State.withInterface_len (s h : State) : (s.withInterface h).len = s.len := rfl
@[simp] theorem State.withInterface_limbs (s h : State) : (s.withInterface h).limbs = s.limbs := rfl
@[simp] theorem State.withInterface_bufPrefix (s h : State) (n : Nat) :
    (s.withInterface h).bufPrefix n = s.bufPrefix n := rfl

/-- While a command is in flight a host access changes the host interface alone. -/
theorem hostAccess_eq_withInterface {a : Access} {s t : State} (hb : s.busy = true)
    (h : hostAccess a s = .next t) : t = s.withInterface t := by
  obtain ⟨hp, hv, hm, hc, hs, hd⟩ := hostAccess_keeps h
  obtain ⟨hbuf, hlen, hsc, hf⟩ := hostAccess_keeps_busy hb h
  cases t
  simp only at hp hv hm hc hs hd hbuf hlen hsc hf
  simp only [State.withInterface, hp, hv, hm, hc, hs, hd, hbuf, hlen, hsc, hf]

/-- Both outcomes are next states, with the same results. -/
def sameEnd (o o' : Host.Outcome State Fault Refusal) : Prop :=
  ∃ u u', o = .next u ∧ o' = .next u' ∧ sameResults u u'

/-- The same error, raised under another host interface. -/
theorem sameEnd_raiseErr (s h : State) (e : ErrCode) :
    sameEnd (raiseErr e s) (raiseErr e (s.withInterface h)) :=
  ⟨_, _, rfl, rfl, rfl, rfl, rfl, rfl, rfl, rfl⟩

/-- The same value, loaded under another host interface. -/
theorem sameEnd_setV (s h : State) (d : Reg) (x : Value) :
    sameEnd (complete (s.setV d x)) (complete ((s.withInterface h).setV d x)) :=
  ⟨_, _, rfl, rfl, rfl, rfl, rfl, rfl, rfl, rfl⟩

/-- The same check, decided alike. -/
theorem sameEnd_ite {p q : Prop} [Decidable p] [Decidable q]
    {a b a' b' : Host.Outcome State Fault Refusal} (hpq : p ↔ q) (ha : sameEnd a a')
    (hb : sameEnd b b') : sameEnd (if p then a else b) (if q then a' else b') := by
  by_cases hp : p
  · rw [if_pos hp, if_pos (hpq.mp hp)]; exact ha
  · rw [if_neg hp, if_neg (mt hpq.mpr hp)]; exact hb

/-- A command computes the same under any host interface. -/
theorem exec_withInterface (i : Instr) (s h : State) :
    sameEnd (exec i s) (exec i (s.withInterface h)) := by
  cases i with
  | lddec d =>
    simp only [exec, execLddec, State.withInterface_params, State.withInterface_len,
      State.withInterface_limbs, State.withInterface_bufPrefix]
    refine sameEnd_ite Iff.rfl (sameEnd_raiseErr s h .size)
      (sameEnd_ite Iff.rfl ?_ (sameEnd_raiseErr s h .digit))
    split
    · exact sameEnd_setV s h d _
    · exact sameEnd_raiseErr s h .overflow
  | ldbytes d =>
    exact sameEnd_ite Iff.rfl (sameEnd_raiseErr s h .size) (sameEnd_setV s h d _)
  | _ => exact ⟨_, _, rfl, rfl, rfl, rfl, rfl, rfl, rfl, rfl⟩

theorem runCommand_withInterface (c : Word) (s h : State) :
    sameEnd (runCommand c s) (runCommand c (s.withInterface h)) := by
  unfold runCommand
  cases decode c with
  | ok i => exact exec_withInterface i s h
  | error e => exact sameEnd_raiseErr s h .illegal

/-! ### The invariant -/

/-- The parts of the state that the invariant does not speak of. -/
theorem State.wf_congr {s t : State} (hp : t.params = s.params) (hv : t.v = s.v)
    (hb : Memory.wf s.buf = true → Memory.wf t.buf = true) (hs : s.wf) : t.wf :=
  ⟨by simpa only [State.getV, State.limbs, hp, hv] using hs.1, hb hs.2⟩

/-- A register written with L limbs keeps the invariant. -/
theorem State.wf_setV {s : State} (hs : s.wf) (d : Reg) {x : Value} (hx : x.length = s.limbs) :
    (s.setV d x).wf := by
  refine ⟨fun r => ?_, hs.2⟩
  rw [State.getV_setV, State.setV_limbs]
  split
  · exact hx
  · exact hs.1 r

theorem State.wf_finish {s : State} (hs : s.wf) : s.finish.wf := hs

/-- The string of TOHEX fits in BUF: N <= 512 (00_scope.md R9, 43_serialization.md R150). -/
theorem hexString_fits {s : State} (hs : s.wf) (r : Reg) (u : Bool) :
    (hexString (s.getV r) u).length ≤ 256 := by
  have hL : s.limbs ≤ 16 := s.params.width.upper
  rw [hexString_length, hs.1 r]
  omega

/-- Every command keeps the invariant (10_state.md R22, R26). -/
theorem exec_keeps_wf {i : Instr} {s t : State} (hs : s.wf) (h : exec i s = .next t) : t.wf := by
  obtain ⟨e, -, -, h'⟩ | ⟨d, x, h', hx⟩ | ⟨d, r, rfl⟩ | ⟨d, r, rfl⟩ | ⟨d, r, rfl⟩ | ⟨r, fn, rfl⟩ :=
    exec_cases i s
  · rw [h'] at h; cases h; exact hs
  · rw [h'] at h; cases h; exact State.wf_finish (State.wf_setV hs d (hx hs.1))
  · rw [exec_sub] at h
    cases h
    have hf : (flipSign s.limbs (s.getV r)).length = s.limbs := (flipSign_length _ _).trans (hs.1 r)
    have h1 := State.wf_setV hs r hf
    refine State.wf_finish (State.wf_setV h1 d ?_)
    rw [rippleAdd_length _ _ _ ((h1.1 d).trans hf.symm)]
    exact h1.1 d
  · rw [exec_mul] at h
    cases h
    exact State.wf_congr (s := s.setV d _) rfl rfl id (State.wf_setV hs d (mulResult_length _ _ _ _))
  · rw [exec_cmp] at h; cases h; exact hs
  · rw [exec_tohex] at h
    cases h
    have hfit := hexString_fits hs r (isUpper fn)
    exact State.wf_congr (s := s) rfl rfl (Memory.wf_writeList _ _ _ (by omega)) hs

theorem runCommand_keeps_wf {c : Word} {s t : State} (hs : s.wf) (h : runCommand c s = .next t) :
    t.wf := by
  obtain ⟨i, -, h'⟩ | ⟨e, -, h'⟩ := runCommand_cases c s
  · exact exec_keeps_wf hs (h' ▸ h)
  · rw [h'] at h; cases h; exact hs

/-- Every host access keeps the invariant. -/
theorem hostAccess_keeps_wf {a : Access} {s t : State} (hs : s.wf) (h : hostAccess a s = .next t) :
    t.wf := by
  obtain ⟨hp, hv, -⟩ := hostAccess_keeps h
  refine State.wf_congr hp hv (fun hb => ?_) hs
  obtain h' | ⟨x, h'⟩ | ⟨off, v, -, -, -, h'⟩ := hostAccess_cases a s
  · rw [h'] at h; cases h
  · rw [h'] at h; cases h; exact hb
  · rw [h'] at h; cases h; exact writePort_buf_wf s off v hb

/-- The reset state of every build has the invariant (10_state.md R40). -/
theorem resetOf_wf (p : Params) : (State.resetOf p).wf := by
  refine ⟨fun r => ?_, Memory.wf_reset p⟩
  simp [State.resetOf, State.getV, State.limbs]

/-! ### Steps -/

/-- What every host access, every command word and reset keep, every step keeps, when it does not
speak of the schedule and of the draw counter. -/
theorem step_invariant {P : State → Prop}
    (hb : ∀ a s u, P s → hostAccess a s = .next u → P u)
    (hc : ∀ c s u, P s → runCommand c s = .next u → P u) (hr : ∀ s, P s → P s.blockReset)
    (hn : ∀ s rest, P s → P { s with schedule := rest }) (ht : ∀ s, P s → P s.tick)
    {s t : State} (hs : P s) (h : step s = .next t) : P t := by
  obtain ⟨u, hu, rfl⟩ := (step_next_iff s t).mp h
  obtain ⟨rest, hrest⟩ := nextTurn_state s
  exact ht u (takeTurn_invariant P hb hc hr _ _ u (hrest ▸ hn s rest hs) hu)

/-- No step changes the parameters (00_scope.md R7). -/
theorem step_keeps_params {s t : State} (h : step s = .next t) : t.params = s.params :=
  step_invariant (P := fun u => u.params = s.params)
    (fun _ _ _ hs h => (hostAccess_keeps h).1.trans hs)
    (fun _ _ _ hs h => (runCommand_keeps_params h).trans hs)
    (fun _ hs => hs) (fun _ _ hs => hs) (fun _ hs => hs) rfl h

/-- Every step keeps the invariant. -/
theorem step_keeps_wf {s t : State} (hs : s.wf) (h : step s = .next t) : t.wf :=
  step_invariant (P := State.wf) (fun _ _ _ => hostAccess_keeps_wf)
    (fun _ _ _ => runCommand_keeps_wf) (fun s _ => resetOf_wf s.params) (fun _ _ hs => hs)
    (fun _ hs => hs) hs h

/-- The step that a given next turn is. -/
theorem step_of_schedule {s : State} {u : Turn} {rest : List Turn} (h : s.schedule = u :: rest) :
    step s = afterStep (takeTurn u { s with schedule := rest }) := by
  simp only [step, nextTurn, h]

theorem step_of_empty_schedule {s : State} (h : s.schedule = []) :
    step s = afterStep (unitTurn s) := by
  simp only [step, nextTurn, h, takeTurn]

/-- The unit's turn ends the command in flight (10_state.md R30, R31). -/
theorem unitTurn_ends {s : State} (hb : s.busy = true) : endsIdleAndDone (unitTurn s) := by
  obtain ⟨c, -, h⟩ | ⟨h, -⟩ := unitTurn_cases s
  · rw [h]; exact runCommand_ends c s
  · simp [State.busy, h] at hb

/-- An access in the ending step is answered, and the command in flight ends all the same
(10_state.md R31). -/
theorem hostAndUnitTurn_ends {a : Access} {s : State} (hb : s.busy = true)
    (ha : Turn.inside s.params (.hostAndUnit a) = true) :
    endsIdleAndDone (hostAndUnitTurn a s) := by
  obtain ⟨c, hc⟩ := Option.isSome_iff_exists.mp hb
  obtain ⟨u, hu⟩ := hostAccess_answers ha
  rw [hostAndUnitTurn_busy a c s u hc hu]
  exact runCommand_ends c u

/-- What the turn answers, the step answers with the next draw number. -/
theorem afterStep_ends {o : Host.Outcome State Fault Refusal} (h : endsIdleAndDone o) :
    endsIdleAndDone (afterStep o) := by
  obtain ⟨t, rfl, hb, hd⟩ := h
  exact ⟨t.tick, rfl, hb, hd⟩

/-! ### What the host reads -/

/-- STATUS of an idle block (10_state.md R29). -/
theorem State.statusWord_idle {s : State} (h : s.busy = false) :
    s.statusWord = s.statusWith s.movf (cmpCode s.cmp) := by
  simp [State.statusWord, h]

/-- STATUS while a command is in flight (20_memory.md R63). -/
theorem State.statusWord_busy {s : State} (h : s.busy = true) :
    s.statusWord = s.statusWith ((Config.freeWord s.draws).getLsbD 2)
      ((Config.freeWord s.draws).extractLsb' 4 2) := by
  simp only [State.statusWord, h, if_true, State.freeWord]

/-- STATUS as read is STATUS with some MOVF and CMP. -/
theorem State.statusWord_eq_statusWith (s : State) : ∃ m c, s.statusWord = s.statusWith m c := by
  cases h : s.busy
  · exact ⟨_, _, State.statusWord_idle h⟩
  · exact ⟨_, _, State.statusWord_busy h⟩

/-- The codes of 60_exceptions.md R160. -/
theorem errCode_toNat (e : ErrCode) : (errCode e).toNat = errNumber e := by cases e <;> rfl

/-- The codes of 10_state.md R33. -/
theorem cmpCode_toNat (c : CmpResult) : (cmpCode c).toNat = cmpNumber c := by cases c <;> rfl

/-- The reserved offsets of the map (20_memory.md R53). -/
theorem portOf_reserved {off : Nat} (h : reservedOffset off) : portOf off = .reserved := by
  obtain rfl | ⟨h1, h2⟩ | ⟨h1, h2⟩ := h
  · rfl
  · simp only [portOf]
    rw [if_pos (by omega), if_neg (by omega), if_neg (by omega), if_neg (by omega),
      if_neg (by omega), if_neg (by omega), if_neg (by omega), if_neg (by omega)]
  · simp only [portOf]
    rw [if_neg (by omega), if_neg (by omega), if_pos (by omega)]

/-- LEN and the two windows answer the free value of the step while a command is in flight
(20_memory.md R63). -/
theorem State.readPort_busy {s : State} {off : Nat} (hb : s.busy = true)
    (h : off = 0x010 ∨ (0x100 ≤ off ∧ off < 0x200) ∨ 0x400 ≤ off) :
    s.readPort (portOf off) = Config.freeWord s.draws := by
  obtain rfl | ⟨h1, h2⟩ | h1 := h
  · exact if_pos hb
  · simp only [portOf]
    rw [if_neg (by omega), if_pos (by omega)]
    exact if_pos hb
  · simp only [portOf]
    rw [if_neg (by omega), if_neg (by omega), if_neg (by omega)]
    exact if_pos hb

/-- LEN as an idle block answers it (10_state.md R37). -/
theorem State.readPort_len_idle {s : State} (h : s.busy = false) :
    s.readPort .len = s.len.setWidth 32 := by
  simp [State.readPort, h]

/-- The low half of a zero-extended LEN, and the zeros above it. -/
theorem len_setWidth_fields (x : BitVec 16) :
    (x.setWidth 32).extractLsb' 0 16 = x ∧ (x.setWidth 32).extractLsb' 16 16 = 0#16 := by
  constructor <;> apply BitVec.eq_of_toNat_eq <;> simp <;> omega

/-- The number of the CFG word; N fits in its 16 bits (10_state.md R27). -/
theorem cfgWord_toNat (p : Params) :
    (cfgWord p).toNat = 16 * 2 ^ 24 + 32 * 2 ^ 16 + 32 * p.width.limbs := by
  have hN : 32 * p.width.limbs < 2 ^ 16 := by have := p.width.upper; omega
  rw [cfgWord, BitVec.toNat_append, BitVec.toNat_ofNat, Nat.mod_eq_of_lt hN,
    ← Nat.shiftLeft_add_eq_or_of_lt hN]
  simp

/-! ### The statements -/

/-- Settles O59: the invariant is kept by every host access, command word and reset. -/
theorem everyStepKeepsTheInvariant : Obligations.EveryStepKeepsTheInvariant := by
  intro s t hs h
  have ht := step_keeps_wf hs h
  refine ⟨ht, step_keeps_params h, fun r => ?_⟩
  rw [← ht.1 r]
  exact val_lt (t.getV r)

/-- Settles O35: every command word ends, and so does the unit's turn, which an empty schedule
gives. -/
theorem everyCommandEndsIdleAndDone : Obligations.EveryCommandEndsIdleAndDone := by
  refine ⟨runCommand_ends, fun s hb hs => ?_⟩
  obtain hs | hs := hs
  · rw [step_of_empty_schedule hs]
    exact afterStep_ends (unitTurn_ends hb)
  · obtain ⟨rest, hrest⟩ := List.head?_eq_some_iff.mp hs
    rw [step_of_schedule hrest]
    exact afterStep_ends (unitTurn_ends hb)

/-- Settles O37: a command records its error only in an ERR that is 0, and only a STATUS write
clears ERR. -/
theorem firstErrorWins : Obligations.FirstErrorWins := by
  intro c s t a hs
  refine ⟨runCommand_keeps_err hs, fun h ha => ?_⟩
  obtain h' | ⟨x, h'⟩ | ⟨off, v, -, -, rfl, h'⟩ := hostAccess_cases a s
  · rw [h'] at h; cases h
  · rw [h'] at h; cases h; rfl
  · rw [h'] at h
    cases h
    refine writePort_keeps_err hs fun hp => ?_
    obtain rfl := portOf_eq_status hp
    exact (ha v).resolve_left fun hne => hne rfl

/-- Settles O38: MUL computes MOVF from the exact product, in either MUL_CARRY mode. -/
theorem movfIsWrittenOnlyByMul : Obligations.MovfIsWrittenOnlyByMul := by
  intro i s t h
  obtain ⟨-, hm, -⟩ := exec_status h
  exact ⟨fun d r hi => exec_mul_movf (hi ▸ h), hm⟩

/-- Settles O39: the CMP field of an idle block is the code of the CMP result. -/
theorem cmpFieldIsWrittenOnlyByCmp : Obligations.CmpFieldIsWrittenOnlyByCmp := by
  refine ⟨fun i s t h => ?_, fun a s t h => ?_, fun s hb => ?_⟩
  · obtain ⟨-, -, hc⟩ := exec_status h
    exact hc
  · obtain ⟨-, -, -, hc, -⟩ := hostAccess_keeps h
    exact hc
  · obtain ⟨-, -, -, -, hc, -⟩ := statusWith_fields s s.movf (cmpCode s.cmp)
    rw [State.statusWord_idle hb, hc]
    cases s.cmp <;> decide

/-- Settles O40: an error changes no register, and any other end leaves ERR and the registers that
R24 does not name. -/
theorem onlyTheNamedRegistersAreWritten : Obligations.OnlyTheNamedRegistersAreWritten := by
  refine ⟨fun i s t r h hr => ⟨?_, ?_⟩, fun a s t h => ?_⟩
  · by_contra hq
    exact hr (exec_keeps_other_registers h hq)
  · obtain ⟨he | ⟨e, -, -, rfl⟩, -⟩ := exec_status h
    · exact he
    · exact absurd rfl hr
  · obtain ⟨-, hv, -⟩ := hostAccess_keeps h
    exact hv

/-- Settles O41: while a command is in flight an access changes the host interface alone, which no
command reads. -/
theorem hostCannotDisturbACommand : Obligations.HostCannotDisturbACommand := by
  intro a c s t u hc ht hu
  have hb : s.busy = true := by simp [State.busy, hc]
  refine ⟨(hostAccess_inFlight a s t hb ht).trans hc, ?_⟩
  obtain ⟨u₁, u', h₁, h', hsame⟩ := runCommand_withInterface c s t
  cases h₁.symm.trans hu
  exact ⟨u', by rw [hostAccess_eq_withInterface hb ht]; exact h', hsame⟩

/-- Settles O47, port by port. -/
theorem readsWhileBusyAndIdle : Obligations.ReadsWhileBusyAndIdle := by
  intro off s hoff h4
  refine ⟨s.readPort (portOf off), hostAccess_read_word s off hoff h4, ?_, ?_, ?_, ?_, ?_, ?_,
    fun hb => ⟨?_, ?_⟩, fun hb => ⟨?_, State.readPort_busy hb⟩⟩
  · rintro rfl; rfl
  · rintro rfl; exact ctrlWord_fields s
  · rintro rfl
    obtain ⟨m, c, h⟩ := s.statusWord_eq_statusWith
    obtain ⟨hbusy, hdone, -, h3, -, h6, herr, h12⟩ := statusWith_fields s m c
    rw [← h] at hbusy hdone h3 h6 herr h12
    exact ⟨hbusy, hdone, h3, h6, by rw [← errCode_toNat, ← herr]; rfl, h12⟩
  · rintro (rfl | hr)
    · rfl
    · rw [portOf_reserved hr]; rfl
  · rintro rfl; rfl
  · rintro rfl; rfl
  · rintro rfl
    obtain ⟨-, -, hm, -, hc, -⟩ := statusWith_fields s s.movf (cmpCode s.cmp)
    rw [← State.statusWord_idle hb] at hm hc
    exact ⟨hm, by rw [← cmpCode_toNat, ← hc]; rfl⟩
  · rintro rfl
    rw [show portOf 0x010 = .len from rfl, State.readPort_len_idle hb]
    exact len_setWidth_fields s.len
  · rintro rfl
    obtain ⟨-, -, hm, -, hc, -⟩ := statusWith_fields s ((freeWord s.draws).getLsbD 2)
      ((freeWord s.draws).extractLsb' 4 2)
    rw [← State.statusWord_busy hb] at hm hc
    exact ⟨hm, hc⟩

/-- Settles O43, by the three cases of a CMD write. -/
theorem cmdWriteIssuesOrNot : Obligations.CmdWriteIssuesOrNot := by
  intro c s
  have hw : hostAccess (wr s 0x00C c) s = .next { s.issue c with response := .written } :=
    hostAccess_write_word s 0x00C c (by decide) (by decide)
  refine ⟨fun hb => ?_, fun hb he => ?_, fun hb he => ⟨?_, rfl⟩,
    hostAccess_read_word s 0x00C (by decide) (by decide)⟩
  · rw [hw, State.issue_busy c hb]; rfl
  · rw [hw, State.issue_discarded c hb he]
  · rw [hw, State.issue_accepted c hb he]

/-- Settles O44, by the STATUS write field by field. -/
theorem statusWriteClearsDoneAndErr : Obligations.StatusWriteClearsDoneAndErr := by
  intro v s
  refine (hostAccess_write_word s 0x008 v (by decide) (by decide)).trans ?_
  rw [show portOf 0x008 = .status from rfl, State.writePort, State.writeStatus_eq]

/-- Settles O54: the end of the command comes last in its step. -/
theorem doneSurvivesAWriteInTheSameStep : Obligations.DoneSurvivesAWriteInTheSameStep := by
  intro v rest s t
  refine ⟨fun a hb ha hs => ?_, fun hb hs h => ?_, fun hb hs h => ?_, fun hb he hs h => ?_⟩
  · rw [step_of_schedule hs]
    obtain ⟨u, hu, hbu, hdu⟩ :=
      afterStep_ends (hostAndUnitTurn_ends (s := { s with schedule := rest }) hb ha)
    exact ⟨u, hu, hdu, hbu⟩
  · rw [step_of_schedule hs, takeTurn] at h
    cases (congrArg afterStep
      (statusWriteClearsDoneAndErr v { s with schedule := rest })).symm.trans h
    exact ⟨rfl, hb⟩
  · rw [step_of_schedule hs, takeTurn] at h
    obtain ⟨u, hu, hbu, hdu⟩ := afterStep_ends (unitTurn_ends (s := { s with schedule := rest }) hb)
    cases hu.symm.trans h
    exact ⟨hdu, hbu⟩
  · rw [step_of_schedule hs, takeTurn] at h
    obtain ⟨-, hdiscard, -⟩ := cmdWriteIssuesOrNot v { s with schedule := rest }
    cases (congrArg afterStep (hdiscard hb he)).symm.trans h
    rfl

/-- Settles O53: an idle block takes each write whole, and the second of two keeps the half of SCALAR
that the first has written. -/
theorem dataRegisterWrites : Obligations.DataRegisterWrites := by
  intro v w s
  refine ⟨hostAccess_write_word s 0x004 v (by decide) (by decide), fun hb => ?_⟩
  refine ⟨hostAccess_wr_len hb v, hostAccess_wr_scalarLo hb v, hostAccess_wr_scalarHi hb w,
    ⟨_, hostAccess_wr_scalarLo hb v, ?_⟩, ⟨_, hostAccess_wr_scalarHi hb w, ?_⟩⟩
  · refine (hostAccess_wr_scalarHi (s := { s with
      scalar := s.scalar.extractLsb' 32 32 ++ v, response := .written }) hb w).trans ?_
    rw [low_word_of_append]
  · refine (hostAccess_wr_scalarLo (s := { s with
      scalar := w ++ s.scalar.extractLsb' 0 32, response := .written }) hb v).trans ?_
    rw [high_word_of_append]

/-- Settles O56: no step changes the parameters, from which CFG is computed. -/
theorem cfgIsConstant : Obligations.CfgIsConstant :=
  ⟨fun _ _ h => ⟨step_keeps_params h, congrArg cfgWord (step_keeps_params h)⟩,
    fun v s => ⟨hostAccess_read_word s 0x000 (by decide) (by decide),
      hostAccess_write_word s 0x000 v (by decide) (by decide)⟩,
    cfgWord_toNat⟩

/-- Settles O58: `State.reset` is the reset state of one build. -/
theorem resetStateIsWellFormed : Obligations.ResetStateIsWellFormed :=
  ⟨fun p => ⟨resetOf_wf p, rfl, rfl⟩, resetOf_wf defaultParams, rfl, rfl⟩

end Sys2Proof.Machine
end

section
/-! Proofs of the statements about the host's register space and about what commands leave unchanged
(20_memory.md). -/

namespace Sys2Proof.Machine

open Sys2Proof.Config Sys2Proof.Claims

/-! ### Frames of the commands -/

/-- No command writes CTRL, SCALAR or the model's own fields (10_state.md R28, R38). -/
theorem exec_keeps_interface {i : Instr} {s t : State} (h : exec i s = .next t) :
    sameInterface s t := by
  obtain ⟨hp, hd, he, hsc, hr, hsch, hdr, -⟩ := exec_keeps i s t h
  exact ⟨hp, hd, he, hsc, hr, hsch, hdr⟩

/-- CLR, MOV, LDU, NEG, NEGTC, ADD and SUBTC complete, with V[RD] written and nothing else. -/
theorem exec_oneRegister {i : Instr} {d r : Reg} {fn : BitVec 8}
    (hi : i ∈ [.clr d, .mov d r, .ldu d fn, .neg d, .negtc d, .add d r, .subtc d r]) (s : State) :
    ∃ x, exec i s = .next (s.setV d x).finish := by
  simp only [List.mem_cons, List.not_mem_nil, or_false] at hi
  obtain rfl | rfl | rfl | rfl | rfl | rfl | rfl := hi <;> exact ⟨_, rfl⟩

/-- LDDEC, LDBYTES and LDHEX complete with V[RD] written, or raise an error and write nothing else
(40_construction.md R100, 60_exceptions.md R167). -/
theorem exec_bufferCommand {i : Instr} {d : Reg} (hi : i ∈ [.lddec d, .ldbytes d, .ldhex d])
    (s : State) :
    (∃ x, exec i s = .next (s.setV d x).finish) ∨
    (∃ e, exec i s = .next (s.recordErr e).finish) := by
  simp only [List.mem_cons, List.not_mem_nil, or_false] at hi
  obtain rfl | rfl | rfl := hi
  · obtain ⟨-, h⟩ | ⟨-, -, h⟩ | ⟨-, -, -, h⟩ | ⟨x, -, -, -, h⟩ := execLddec_cases d s
    · exact .inr ⟨_, h⟩
    · exact .inr ⟨_, h⟩
    · exact .inr ⟨_, h⟩
    · exact .inl ⟨x, h⟩
  · obtain ⟨-, h⟩ | ⟨-, h⟩ := execLdbytes_cases d s
    · exact .inr ⟨_, h⟩
    · exact .inl ⟨_, h⟩
  · exact .inr ⟨.unimpl, rfl⟩

/-- ERR after an attempt to record an error: as before, or it was 0 (10_state.md R34). -/
theorem State.recordErr_err_eq_or (s : State) (e : ErrCode) :
    (s.recordErr e).err = s.err ∨ s.err = .none := by
  by_cases he : s.err = .none
  · exact .inr he
  · exact .inl (if_neg he)

/-- A list written at the start of BUF leaves every byte behind it. -/
theorem Memory.read_writeList_zero_of_le (m : Memory) {a : Nat} (bs : List Byte)
    (h : bs.length ≤ a) : Memory.read (Memory.writeList m 0 bs) a = Memory.read m a := by
  rw [Memory.read_writeList, if_neg (by omega)]

/-! ### Steps while a command stays in flight -/

/-- The only turn that leaves a command in flight is an access of the host: the unit's turn ends it
and reset abandons it (20_memory.md R61, 70_reset_and_hazards.md R180). -/
theorem takeTurn_stays_busy {u : Turn} {s t : State} (hs : s.busy = true)
    (h : takeTurn u s = .next t) (ht : t.busy = true) : ∃ a, hostAccess a s = .next t := by
  have ended {o} (he : endsIdleAndDone o) (ho : o = .next t) : False := by
    obtain ⟨t', rfl, hb, -⟩ := he
    cases ho
    simp [hb] at ht
  cases u with
  | host a => exact ⟨a, h⟩
  | unit => exact (ended (unitTurn_ends hs) h).elim
  | hostAndUnit a =>
    obtain ⟨c, hc⟩ := Option.isSome_iff_exists.mp hs
    cases ha : hostAccess a s with
    | next s' =>
      have he : endsIdleAndDone (hostAndUnitTurn a s) := by
        rw [hostAndUnitTurn_busy a c s s' hc ha]
        exact runCommand_ends c s'
      exact (ended he h).elim
    | fault f => simp [takeTurn, hostAndUnitTurn, ha] at h
    | refused q => simp [takeTurn, hostAndUnitTurn, ha] at h
  | reset =>
    cases h
    exact Bool.noConfusion ht

/-- While a command is in flight a host access changes none of what its results are made of
(20_memory.md R63). -/
theorem hostAccess_sameResults {a : Access} {s t : State} (hb : s.busy = true)
    (h : hostAccess a s = .next t) : sameResults s t := by
  obtain ⟨-, hv, hm, hc, -, -⟩ := hostAccess_keeps h
  obtain ⟨hbuf, hlen, hsc, -⟩ := hostAccess_keeps_busy hb h
  exact ⟨hv, hbuf, hlen, hsc, hm, hc⟩

/-! ### The address map -/

/-- A reserved offset is inside the register space (20_memory.md R51, R53). -/
theorem reservedOffset_lt {off : Nat} (h : reservedOffset off) : off < 0x800 := by
  unfold reservedOffset at h
  omega

/-- Word k of the BUF window (20_memory.md R54). -/
theorem portOf_bufWindow {k : Nat} (hk : k < 64) : portOf (0x100 + 4 * k) = .bufWord k := by
  unfold portOf
  rw [if_neg (by omega), if_pos (by omega), show (0x100 + 4 * k - 0x100) / 4 = k by omega]

/-- Word i of register r in the value window (20_memory.md R55). -/
theorem portOf_valueWindow (r : Reg) {i : Nat} (hi : i < 16) :
    portOf (0x400 + 0x40 * r.val + 4 * i) = .limb r i := by
  have hr : (0x400 + 0x40 * r.val + 4 * i - 0x400) / 0x40 = r.val := by omega
  have hl : (0x400 + 0x40 * r.val + 4 * i - 0x400) % 0x40 / 4 = i := by omega
  unfold portOf
  rw [if_neg (by omega), if_neg (by omega), if_neg (by omega), hr, hl, Fin.ofNat_val_eq_self]

/-! ### Reserved bits -/

/-- Two words that a port takes alike are the same access. -/
theorem hostAccess_wr_congr {s : State} {off : Nat} {v w : Word} (h : off < 0x800)
    (h4 : off % 4 = 0) (hp : s.writePort (portOf off) v = s.writePort (portOf off) w) :
    hostAccess (wr s off v) s = hostAccess (wr s off w) s := by
  refine (hostAccess_write_word s off v h h4).trans ?_
  rw [hp]
  exact (hostAccess_write_word s off w h h4).symm

/-- A bit that the mask holds is the word's own. -/
theorem getLsbD_and_of_set {v m : Word} {i : Nat} (h : m.getLsbD i = true) :
    (v &&& m).getLsbD i = v.getLsbD i := by
  rw [BitVec.getLsbD_and, h, Bool.and_true]

/-- CTRL takes bits 1:0 (10_state.md R28). -/
theorem State.writeCtrl_masked (s : State) (v : Word) :
    s.writeCtrl v = s.writeCtrl (v &&& 0x00000003#32) := by
  simp only [State.writeCtrl]
  rw [getLsbD_and_of_set (by decide), getLsbD_and_of_set (by decide)]

/-- STATUS takes bits 1 and 31 (10_state.md R35). -/
theorem State.writeStatus_masked (s : State) (v : Word) :
    s.writeStatus v = s.writeStatus (v &&& 0x80000002#32) := by
  simp only [State.writeStatus_eq]
  rw [getLsbD_and_of_set (by decide), getLsbD_and_of_set (by decide)]

/-- LEN takes bits 15:0 (10_state.md R37). -/
theorem len_field_masked (v : Word) :
    v.extractLsb' 0 16 = (v &&& 0x0000FFFF#32).extractLsb' 0 16 := by
  rw [BitVec.extractLsb'_and, show (0x0000FFFF#32).extractLsb' 0 16 = BitVec.allOnes 16 by decide,
    BitVec.and_allOnes]

/-! ### The windows -/

/-- A word of the BUF window of an idle block (20_memory.md R54). -/
theorem hostAccess_rd_bufWindow {s : State} {k : Nat} {w : Word} (hk : k < 64)
    (hb : s.busy = false) (hw : s.bufWindowWord k = w) :
    hostAccess (rd s (0x100 + 4 * k)) s = .next (answered s w) := by
  refine (hostAccess_read_word s (0x100 + 4 * k) (by omega) (by omega)).trans ?_
  rw [portOf_bufWindow hk, State.readPort, hb, hw]
  rfl

/-- A write of a word of the BUF window of an idle block (20_memory.md R54). -/
theorem hostAccess_wr_bufWindow {s : State} {k : Nat} (hk : k < 64) (hb : s.busy = false)
    (v : Word) :
    hostAccess (wr s (0x100 + 4 * k) v) s =
      .next { s.writeBufWord k v with response := .written } := by
  refine (hostAccess_write_word s (0x100 + 4 * k) v (by omega) (by omega)).trans ?_
  rw [portOf_bufWindow hk, State.writePort, State.whenIdle_idle _ hb]

/-- Byte j of the word goes to BUF[4k+j] (20_memory.md R54). -/
theorem State.read_writeBufWord (s : State) (k : Nat) (v : Word) {j : Nat} (hj : j < 4) :
    Memory.read (s.writeBufWord k v).buf (4 * k + j) = some (v.extractLsb' (8 * j) 8) := by
  rw [State.writeBufWord, Memory.read_writeList, if_pos (by simp; omega), Nat.add_sub_cancel_left]
  match j with
  | 0 | 1 | 2 | 3 => rfl

/-- No other byte is written. -/
theorem State.read_writeBufWord_other (s : State) (k : Nat) (v : Word) {a : Nat}
    (ha : a < 4 * k ∨ 4 * k + 4 ≤ a) :
    Memory.read (s.writeBufWord k v).buf a = Memory.read s.buf a := by
  rw [State.writeBufWord, Memory.read_writeList, if_neg (by simp; omega)]

/-- A listed byte is what the present step reads. -/
theorem State.readBuf_of_read {s : State} {a : Nat} {b : Byte} (h : Memory.read s.buf a = some b) :
    s.readBuf a = b := by
  rw [State.readBuf, h]

/-- A word is its four bytes. -/
theorem word_eq_bytes (v : Word) :
    v.extractLsb' 24 8 ++ v.extractLsb' 16 8 ++ v.extractLsb' 8 8 ++ v.extractLsb' 0 8 = v := by
  rw [BitVec.extractLsb'_append_extractLsb'_eq_extractLsb' (by rfl),
    BitVec.extractLsb'_append_extractLsb'_eq_extractLsb' (by rfl),
    BitVec.extractLsb'_append_extractLsb'_eq_extractLsb' (by rfl)]
  exact BitVec.extractLsb'_eq_self

/-- The word written is the word the window then shows (20_memory.md R54). -/
theorem State.bufWindowWord_writeBufWord (s : State) (k : Nat) (v : Word) :
    (s.writeBufWord k v).bufWindowWord k = v := by
  have byte {j : Nat} (hj : j < 4) := State.readBuf_of_read (s.read_writeBufWord k v hj)
  rw [State.bufWindowWord, byte (j := 3) (by decide), byte (j := 2) (by decide),
    byte (j := 1) (by decide), show 4 * k = 4 * k + 0 from rfl, byte (j := 0) (by decide)]
  exact word_eq_bytes v

/-! ### The statements -/

/-- Settles O31: each of these commands completes with V[RD] written and nothing else. -/
theorem oneRegisterCommandsFrame : Obligations.OneRegisterCommandsFrame := by
  intro d r fn s t i hi h
  have hif := exec_keeps_interface h
  obtain ⟨x, hx⟩ := exec_oneRegister hi s
  cases hx.symm.trans h
  exact ⟨fun q hq => getV_finish_setV_other s x (by simpa using hq), fun _ => rfl, rfl, rfl, rfl,
    rfl, hif⟩

/-- Settles O32, by the two ends these commands can have. -/
theorem bufferCommandsFrame : Obligations.BufferCommandsFrame := by
  intro d s t i hi h
  have hif := exec_keeps_interface h
  obtain ⟨x, hx⟩ | ⟨e, he⟩ := exec_bufferCommand hi s
  · cases hx.symm.trans h
    exact ⟨fun q hq => getV_finish_setV_other s x (by simpa using hq), fun _ => rfl, rfl, rfl, rfl,
      .inl rfl, hif⟩
  · cases he.symm.trans h
    exact ⟨fun _ _ => rfl, fun _ => rfl, rfl, rfl, rfl,
      (s.recordErr_err_eq_or e).imp_right fun h0 => ⟨h0, rfl⟩, hif⟩

/-- Settles O33: the registers by 10_state.md R24, the rest by what each command writes. -/
theorem subMulCmpFrame : Obligations.SubMulCmpFrame := by
  intro d r s t
  refine ⟨fun h => ?_, fun h => ?_, fun h => ?_⟩
  · have hreg (q : Reg) (hd : q ≠ d) (hr : q ≠ r) : t.getV q = s.getV q :=
      exec_keeps_other_registers h (by simp [writtenRegs, hd, hr])
    have hif := exec_keeps_interface h
    rw [exec_sub] at h
    cases h
    exact ⟨hreg, fun _ => rfl, rfl, rfl, rfl, rfl, hif⟩
  · have hreg (q : Reg) (hd : q ≠ d) : t.getV q = s.getV q :=
      exec_keeps_other_registers h (by simp [writtenRegs, hd])
    have hif := exec_keeps_interface h
    rw [exec_mul] at h
    cases h
    exact ⟨hreg, fun _ => rfl, rfl, rfl, rfl, hif⟩
  · have hif := exec_keeps_interface h
    rw [exec_cmp] at h
    cases h
    exact ⟨fun _ => rfl, fun _ => rfl, rfl, rfl, rfl, hif⟩

/-- Settles O34: the string of an L-limb value has N/4 characters, stored from BUF[0] on. -/
theorem tohexFrame : Obligations.TohexFrame := by
  intro r fn s t hs h
  have hif := exec_keeps_interface h
  rw [exec_tohex] at h
  cases h
  refine ⟨fun _ => rfl, fun a ha => Memory.read_writeList_zero_of_le _ _ ?_, rfl, rfl, rfl, hif⟩
  rw [hexString_length, hs.1 r]
  omega

/-- Settles O42: the step that leaves a command in flight is an access of the host, which a busy
block answers without a change of its data. -/
theorem noWriteIsVisibleBeforeTheEnd : Obligations.NoWriteIsVisibleBeforeTheEnd := by
  intro s t hs h ht
  obtain ⟨u, hu, rfl⟩ := (step_next_iff s t).mp h
  obtain ⟨rest, hrest⟩ := nextTurn_state s
  rw [hrest] at hu
  obtain ⟨a, ha⟩ := takeTurn_stays_busy (s := { s with schedule := rest }) hs hu ht
  have hsame : sameResults s u := hostAccess_sameResults (s := { s with schedule := rest }) hs ha
  exact ⟨hsame, hostAccess_inFlight a { s with schedule := rest } u hs ha⟩

/-- Settles O49, register by register. -/
theorem reservedSpaceReadsZero : Obligations.ReservedSpaceReadsZero := by
  intro off v s
  obtain ⟨-, -, hctrl⟩ := ctrlWord_fields s
  obtain ⟨m, c, hword⟩ := s.statusWord_eq_statusWith
  obtain ⟨-, -, -, h3, -, h6, -, h12⟩ := statusWith_fields s m c
  rw [← hword] at h3 h6 h12
  refine ⟨fun hr h4 => ⟨?_, ?_⟩, hctrl, h3, h6, h12,
    hostAccess_wr_congr (by decide) (by decide) (s.writeCtrl_masked v),
    hostAccess_wr_congr (by decide) (by decide) (s.writeStatus_masked v),
    hostAccess_wr_congr (by decide) (by decide) ?_, fun hb => ?_⟩
  · refine (hostAccess_read_word s off (reservedOffset_lt hr) h4).trans ?_
    rw [portOf_reserved hr]
    rfl
  · refine (hostAccess_write_word s off v (reservedOffset_lt hr) h4).trans ?_
    rw [portOf_reserved hr]
    rfl
  · rw [show portOf 0x010 = .len from rfl, State.writePort, State.writePort, ← len_field_masked]
  · rw [State.readPort_len_idle hb]
    exact (len_setWidth_fields s.len).2

/-- Settles O50: the four bytes of a word of the window, written and read. -/
theorem bufWindowPacksLittleEndian : Obligations.BufWindowPacksLittleEndian := by
  intro k v s hk hb
  exact ⟨hostAccess_rd_bufWindow hk hb rfl, _, hostAccess_wr_bufWindow hk hb v, rfl,
    fun j => s.read_writeBufWord k v, fun a => s.read_writeBufWord_other k v,
    hostAccess_rd_bufWindow (s := { s.writeBufWord k v with response := .written }) hk hb
      (s.bufWindowWord_writeBufWord k v)⟩

/-- Settles O51: the port of each slot answers its limb and takes no write. -/
theorem valueWindowIsReadOnly : Obligations.ValueWindowIsReadOnly := by
  intro r i v s hi
  have hr := r.isLt
  refine ⟨fun hb => ?_, ?_⟩
  · refine (hostAccess_read_word s _ (by omega) (by omega)).trans ?_
    rw [portOf_valueWindow r hi, State.readPort, hb]
    rfl
  · refine (hostAccess_write_word s _ v (by omega) (by omega)).trans ?_
    rw [portOf_valueWindow r hi]
    rfl

/-- Settles O48: such an access is inside the register space and not a word access. -/
theorem otherAccessesAreBusErrors : Obligations.OtherAccessesAreBusErrors := by
  intro addr bytes v s hlo hhi hother
  have hin : inRegisterSpace s.params addr = true := by simp [inRegisterSpace, hlo, hhi]
  have hw : isWordAccess s.params addr bytes = false := by
    simp only [isWordAccess, Bool.and_eq_false_iff, decide_eq_false_iff_not]
    exact hother
  refine ⟨?_, ?_⟩
  · simp only [hostAccess, hin, hw, if_true, Bool.false_eq_true, if_false]
  · simp only [hostAccess, hin, hw, if_true, Bool.false_eq_true, if_false, State.freeWord]

/-- Settles O52: of what an access can do, only a write of a port changes more than the answer. -/
theorem readsHaveNoSideEffect : Obligations.ReadsHaveNoSideEffect := by
  intro addr bytes s t h
  obtain h' | ⟨x, h'⟩ | ⟨off, v, -, -, hwrite, -⟩ := hostAccess_cases (.read addr bytes) s
  · cases h'.symm.trans h
  · cases h'.symm.trans h
    rfl
  · cases hwrite

end Sys2Proof.Machine
end

section
/-! Proofs about command words (30_encoding.md): the decoder inverts the encoder and is the opcode
map, an illegal word raises E_ILLEGAL, and the unit runs what it decodes. -/

namespace Sys2Proof.Machine

open Sys2Proof.Laws Sys2Proof.Claims

/-! ### The fields of a packed word -/

/-- The number of a packed word (30_encoding.md R85). -/
theorem packWord_toNat (fn : BitVec 8) (rs rd : Reg) (opc : BitVec 8) :
    (packWord fn rs rd opc).toNat =
      opc.toNat + 2 ^ 8 * rd.val + 2 ^ 12 * rs.val + 2 ^ 16 * fn.toNat := by
  have hopc := opc.isLt
  have hrd := rd.isLt
  have hrs := rs.isLt
  simp only [packWord, BitVec.toNat_append, BitVec.toNat_ofNat, Nat.mod_eq_of_lt hrd,
    Nat.mod_eq_of_lt hrs]
  rw [← Nat.shiftLeft_add_eq_or_of_lt hopc, ← Nat.shiftLeft_add_eq_or_of_lt hrd,
    ← Nat.shiftLeft_add_eq_or_of_lt hrs, ← Nat.shiftLeft_add_eq_or_of_lt fn.isLt]
  simp only [Nat.shiftLeft_eq]
  omega

/-- The statements' words are the packed words. -/
theorem cmdWord_eq_packWord (opc fn : BitVec 8) (rd rs : Reg) :
    cmdWord opc.toNat rd rs fn.toNat = packWord fn rs rd opc := by
  rw [cmdWord, ← packWord_toNat, BitVec.ofNat_toNat, BitVec.setWidth_eq]

@[simp] theorem rdField_packWord (fn : BitVec 8) (rs rd : Reg) (opc : BitVec 8) :
    rdField (packWord fn rs rd opc) = rd := by
  apply Fin.eq_of_val_eq
  have hopc := opc.isLt
  have hrd := rd.isLt
  simp only [rdField, BitVec.val_toFin, BitVec.extractLsb'_toNat, packWord_toNat,
    Nat.shiftRight_eq_div_pow]
  omega

@[simp] theorem rsField_packWord (fn : BitVec 8) (rs rd : Reg) (opc : BitVec 8) :
    rsField (packWord fn rs rd opc) = rs := by
  apply Fin.eq_of_val_eq
  have hopc := opc.isLt
  have hrd := rd.isLt
  have hrs := rs.isLt
  simp only [rsField, BitVec.val_toFin, BitVec.extractLsb'_toNat, packWord_toNat,
    Nat.shiftRight_eq_div_pow]
  omega

@[simp] theorem fnField_packWord (fn : BitVec 8) (rs rd : Reg) (opc : BitVec 8) :
    fnField (packWord fn rs rd opc) = fn := by
  apply BitVec.eq_of_toNat_eq
  have hopc := opc.isLt
  have hrd := rd.isLt
  have hrs := rs.isLt
  have hfn := fn.isLt
  simp only [fnField, BitVec.extractLsb'_toNat, packWord_toNat, Nat.shiftRight_eq_div_pow]
  omega

/-! ### Encoding, then decoding -/

/-- The word of a command holds its operands: no bit is dropped (30_encoding.md R85). -/
theorem instrOf_encode (i : Instr) : instrOf (operation i) (encode i) = i := by
  cases i <;> simp only [operation, encode, instrOf, rdField_packWord, rsField_packWord,
    fnField_packWord]

/-- The word of a legal command meets its row of the opcode map (30_encoding.md R79). -/
theorem encode_masked {i : Instr} (h : i.wellFormed = true) :
    encode i &&& maskOf (operation i) = matchOf (operation i) := by
  cases i with
  | clr d => exact (EncodingMeetsTheMap.clr d h).2
  | mov d r => exact (EncodingMeetsTheMap.mov d r h).2
  | ldu d fn => exact (EncodingMeetsTheMap.ldu d fn h).2
  | lddec d => exact (EncodingMeetsTheMap.lddec d h).2
  | ldbytes d => exact (EncodingMeetsTheMap.ldbytes d h).2
  | ldhex d => exact (EncodingMeetsTheMap.ldhex d h).2
  | cmp d r => exact (EncodingMeetsTheMap.cmp d r h).2
  | neg d => exact (EncodingMeetsTheMap.neg d h).2
  | negtc d => exact (EncodingMeetsTheMap.negtc d h).2
  | add d r => exact (EncodingMeetsTheMap.add d r h).2
  | sub d r => exact (EncodingMeetsTheMap.sub d r h).2
  | subtc d r => exact (EncodingMeetsTheMap.subtc d r h).2
  | mul d r => exact (EncodingMeetsTheMap.mul d r h).2
  | tohex r fn => exact (EncodingMeetsTheMap.tohex r fn h).2

/-- Settles O1: the word meets its command's row, and the row's fields give the operands back. -/
theorem decodeEncodeRoundTrip : Obligations.DecodeEncodeRoundTrip := by
  intro i h
  rw [decode_of_masked (encode i) (operation i) (encode_masked h), instrOf_encode]

/-! ### Decoding, then encoding -/

/-- A field that a row's mask covers holds the row's value of it. -/
theorem field_eq_of_masked {c : Word} {o : Operation} (h : c &&& maskOf o = matchOf o)
    (start len : Nat) (hm : (maskOf o).extractLsb' start len = BitVec.allOnes len) :
    c.extractLsb' start len = (matchOf o).extractLsb' start len := by
  have hf := field_of_masked h start len
  rwa [hm, BitVec.and_allOnes] at hf

/-- A part of FN is a part of the word. -/
theorem extractLsb'_fnField (c : Word) {k n : Nat} (h : k + n ≤ 8) :
    (fnField c).extractLsb' k n = c.extractLsb' (16 + k) n := by
  apply BitVec.eq_of_getLsbD_eq
  intro j hj
  simp [fnField, hj, show k + j < 8 by omega, Nat.add_assoc]

/-- The modifier that a row admits is legal (30_encoding.md R76). -/
theorem instrOf_wellFormed {c : Word} {o : Operation} (h : c &&& maskOf o = matchOf o) :
    (instrOf o c).wellFormed = true := by
  cases o with
  | ldu =>
    have hf : c.extractLsb' 18 6 = 0#6 := field_eq_of_masked h 18 6 (by decide)
    have hfn := extractLsb'_fnField c (show 2 + 6 ≤ 8 by decide)
    simp only [instrOf, Instr.wellFormed, sizeCodeOk, hfn, hf, beq_self_eq_true]
  | tohex =>
    have hf : c.extractLsb' 17 7 = 0#7 := field_eq_of_masked h 17 7 (by decide)
    have hfn := extractLsb'_fnField c (show 1 + 7 ≤ 8 by decide)
    simp only [instrOf, Instr.wellFormed, caseCodeOk, hfn, hf, beq_self_eq_true]
  | _ => rfl

/-- A word that meets a row is the word of the row's command: the fields that the command does not
use are 0 (30_encoding.md R75, R76). -/
theorem encode_instrOf {c : Word} {o : Operation} (h : c &&& maskOf o = matchOf o) :
    encode (instrOf o c) = c := by
  have hpack : packWord (fnField c) (rsField c) (rdField c) (opcOf o) = c := by
    rw [← opcField_of_masked c o h]
    refine packWord_fields c ((field_eq_of_masked h 24 8 ?_).trans ?_) <;> cases o <;> decide
  conv_rhs => rw [← hpack]
  cases o with
  | clr | lddec | ldbytes | ldhex | neg | negtc =>
    have hfn : fnField c = 0#8 := field_eq_of_masked h 16 8 (by decide)
    have hrs : rsField c = 0 := congrArg BitVec.toFin (field_eq_of_masked h 12 4 (by decide))
    rw [hfn, hrs]
    rfl
  | mov | cmp | add | sub | subtc | mul =>
    have hfn : fnField c = 0#8 := field_eq_of_masked h 16 8 (by decide)
    rw [hfn]
    rfl
  | ldu =>
    have hrs : rsField c = 0 := congrArg BitVec.toFin (field_eq_of_masked h 12 4 (by decide))
    rw [hrs]
    rfl
  | tohex =>
    have hrd : rdField c = 0 := congrArg BitVec.toFin (field_eq_of_masked h 8 4 (by decide))
    rw [hrd]
    rfl

/-- Settles O2: a word that decodes meets a row of the opcode map. -/
theorem encodeDecodeRoundTrip : Obligations.EncodeDecodeRoundTrip := by
  intro c i h
  obtain ⟨o, -, hm, rfl⟩ := decode_eq_ok c i h
  exact ⟨instrOf_wellFormed hm, encode_instrOf hm⟩

/-! ### The opcode map -/

/-- The command of an operation with its RD, RS and FN (30_encoding.md R79). -/
def commandOf (o : Operation) (d r : Reg) (fn : BitVec 8) : Instr :=
  match o with
  | .clr => .clr d
  | .mov => .mov d r
  | .ldu => .ldu d fn
  | .lddec => .lddec d
  | .ldbytes => .ldbytes d
  | .ldhex => .ldhex d
  | .cmp => .cmp d r
  | .neg => .neg d
  | .negtc => .negtc d
  | .add => .add d r
  | .sub => .sub d r
  | .subtc => .subtc d r
  | .mul => .mul d r
  | .tohex => .tohex r fn

/-- The decoder's row of an operation, in the form of the statements' opcode map. -/
def rowOf (o : Operation) : MapRow := ⟨maskOf o, matchOf o, commandOf o⟩

/-- The opcode map of the statements and the decoder's columns are the same table. -/
theorem mem_opcodeMap {row : MapRow} : row ∈ opcodeMap ↔ ∃ o, rowOf o = row := by
  have hmap : opcodeMap = allOperations.map rowOf := rfl
  have hall (o : Operation) : o ∈ allOperations := by cases o <;> decide
  simp [hmap, hall]

/-- The command of a word has RD from bits 11:8, RS from bits 15:12 and FN from bits 23:16. -/
theorem instrOf_eq_commandOf (o : Operation) (c : Word) :
    instrOf o c = commandOf o (bits11to8 c) (bits15to12 c) (bits23to16 c) := by
  have hd : rdField c = bits11to8 c :=
    Fin.eq_of_val_eq (by simp [rdField, bits11to8, Nat.shiftRight_eq_div_pow])
  have hr : rsField c = bits15to12 c :=
    Fin.eq_of_val_eq (by simp [rsField, bits15to12, Nat.shiftRight_eq_div_pow])
  have hn : fnField c = bits23to16 c :=
    BitVec.eq_of_toNat_eq (by simp [fnField, bits23to16, Nat.shiftRight_eq_div_pow])
  rw [← hd, ← hr, ← hn]
  cases o <;> rfl

/-- A word that no row matches is rejected (30_encoding.md R80). -/
theorem decode_of_illegalWord {c : Word} (h : illegalWord c) : ∃ e, decode c = .error e := by
  cases hd : decode c with
  | error e => exact ⟨e, rfl⟩
  | ok i =>
    obtain ⟨o, -, hm, -⟩ := decode_eq_ok c i hd
    exact absurd hm (h (rowOf o) (mem_opcodeMap.mpr ⟨o, rfl⟩))

/-- Settles O3: the rows of the map are the decoder's. -/
theorem decoderIsTheOpcodeMap : Obligations.DecoderIsTheOpcodeMap := by
  refine ⟨fun row hrow c hc => ?_, fun c => decode_of_illegalWord⟩
  obtain ⟨o, rfl⟩ := mem_opcodeMap.mp hrow
  rw [decode_of_masked c o hc, instrOf_eq_commandOf]
  rfl

/-! ### Running a command word -/

/-- Settles O4: the word is rejected by the decoder, and the rest is R167. -/
theorem illegalWordRaisesIllegal : Obligations.IllegalWordRaisesIllegal := by
  intro c s hc
  obtain ⟨e, he⟩ := decode_of_illegalWord hc
  rw [runCommand, he]
  rfl

/-- The unit's turn, with a decodable word in flight, is `exec` of its command (30_encoding.md
R84). -/
theorem unitTurn_of_decode {s : State} {c : Word} {i : Instr} (hf : s.inFlight = some c)
    (hd : decode c = .ok i) : unitTurn s = exec i s := by
  simp only [unitTurn, hf, runCommand, hd]

/-- A turn of the unit as a step: the command, then the next draw number. -/
theorem afterStep_unitTurn {s t : State} {c : Word} {i : Instr} (hf : s.inFlight = some c)
    (hd : decode c = .ok i) (h : exec i s = .next t) :
    afterStep (unitTurn s) = .next { t with draws := t.draws + 1 } := by
  rw [unitTurn_of_decode hf hd, h]
  rfl

theorem ofNat_word_mod (w : Nat) : BitVec.ofNat 32 (w % 2 ^ 32) = BitVec.ofNat 32 w :=
  BitVec.eq_of_toNat_eq (by simp)

/-- A 32-bit table word decodes as the command word it is (30_encoding.md R83). -/
theorem decodeTableWord_eq_some {w : Nat} {i : Instr} :
    decodeTableWord 32 w = some i ↔ decode (BitVec.ofNat 32 w) = .ok i := by
  rw [decodeTableWord, if_pos (Nat.le_refl 32), ofNat_word_mod]
  cases decode (BitVec.ofNat 32 w) <;> simp

/-- Settles O5: each word is the encoding of the command beside it. -/
theorem writtenWordsDecode : Obligations.WrittenWordsDecode :=
  ⟨decodeEncodeRoundTrip (.neg 3) rfl, decodeEncodeRoundTrip (.add 1 2) rfl,
    decodeEncodeRoundTrip (.ldu 0 3#8) rfl, decodeEncodeRoundTrip (.tohex 5 1#8) rfl,
    decodeEncodeRoundTrip (.clr 2) rfl, decodeEncodeRoundTrip (.cmp 1 2) rfl,
    decodeEncodeRoundTrip (.ldbytes 1) rfl, decodeEncodeRoundTrip (.ldhex 0) rfl⟩

/-- Settles O7: the step takes the unit's turn, and that turn is `exec` of the decoded command. -/
theorem stepRunsTheDecodedCommand : Obligations.StepRunsTheDecodedCommand := by
  intro s t c i hf hd
  refine ⟨fun hs h => ?_, fun rest hs h => ?_, fun w hw h => ?_⟩
  · exact (step_of_empty_schedule hs).trans (afterStep_unitTurn hf hd h)
  · exact (step_of_schedule hs).trans (afterStep_unitTurn hf hd h)
  · rw [State.withFetchWord, ofNat_word_mod]
    have hd := decodeTableWord_eq_some.mp hw
    exact (step_of_schedule (u := .unit) (rest := s.schedule) rfl).trans
      (afterStep_unitTurn rfl hd h)

/-- Settles O17: its word is the encoding of LDHEX, and its meaning is the raise. -/
theorem ldhexRaisesUnimplemented : Obligations.LdhexRaisesUnimplemented := by
  intro d s
  refine ⟨?_, rfl⟩
  rw [show cmdWord 0x06 d 0 0 = encode (.ldhex d) from cmdWord_eq_packWord 0x06#8 0#8 d 0]
  exact decodeEncodeRoundTrip (.ldhex d) rfl

end Sys2Proof.Machine
end

section
/-! Proofs about the assembler text (30_encoding.md R85): how a line of words is cut back into its
words, and that every legal command reads back from its own line. -/

namespace Sys2Proof.Machine

open Sys2Proof.Laws

/-! ### Words of a line -/

/-- A character of a mnemonic or an operand: no blank, no comma, no start of a comment. -/
def isWordChar (c : Char) : Bool := !isBlank c && c != ',' && c != ';'

/-- A word of a command line: a mnemonic or an operand. -/
def isWord (t : List Char) : Bool := !t.isEmpty && t.all isWordChar

theorem isWord_mnemonicText (o : Operation) : isWord (mnemonicText o) = true := by
  cases o <;> decide

theorem isWord_regText (r : Reg) : isWord (regText r) = true := by
  revert r
  decide

theorem isWord_widthText (fn : BitVec 8) : isWord (widthText fn) = true := by
  unfold widthText
  split_ifs <;> decide

theorem isWord_caseText (fn : BitVec 8) : isWord (caseText fn) = true := by
  unfold caseText
  split_ifs <;> decide

theorem isWord_iff {t : List Char} : isWord t = true ↔
    t ≠ [] ∧ ∀ c ∈ t, isBlank c = false ∧ c ≠ ',' ∧ c ≠ ';' := by
  simp [isWord, isWordChar, and_assoc]

/-- A word, and a blank before it, holds no comma and no semicolon. -/
theorem not_mem_blank_word {w : List Char} (hw : isWord w = true) :
    ',' ∉ ' ' :: w ∧ ';' ∉ ' ' :: w := by
  obtain ⟨-, hc⟩ := isWord_iff.mp hw
  simp only [List.mem_cons, not_or]
  exact ⟨⟨by decide, fun h => (hc _ h).2.1 rfl⟩, ⟨by decide, fun h => (hc _ h).2.2 rfl⟩⟩

/-! ### Cutting a line -/

/-- A line without `;` has no comment. -/
theorem withoutComment_of_not_mem {t : List Char} (h : ';' ∉ t) : withoutComment t = t := by
  rw [withoutComment, List.takeWhile_eq_self_iff]
  intro c hc
  simpa using ne_of_mem_of_not_mem hc h

/-- Text that begins with a word has no leading blank. -/
theorem dropWhile_isBlank_word_append {w : List Char} (hw : isWord w = true) (t : List Char) :
    (w ++ t).dropWhile isBlank = w ++ t := by
  obtain ⟨hne, hc⟩ := isWord_iff.mp hw
  obtain ⟨c, w', rfl⟩ := List.exists_cons_of_ne_nil hne
  exact List.dropWhile_cons_of_neg (by simp [(hc c (by simp)).1])

theorem dropWhile_isBlank_word {w : List Char} (hw : isWord w = true) :
    w.dropWhile isBlank = w := by
  simpa only [List.append_nil] using dropWhile_isBlank_word_append hw []

theorem isWord_reverse (w : List Char) : isWord w.reverse = isWord w := by
  simp [isWord]

/-- Text from a word to a word has no blanks at its ends. -/
theorem trimText_between_words {w v : List Char} (hw : isWord w = true) (hv : isWord v = true)
    (t : List Char) : trimText (w ++ t ++ v) = w ++ t ++ v := by
  rw [trimText, List.append_assoc, dropWhile_isBlank_word_append hw, ← List.append_assoc,
    List.reverse_append, dropWhile_isBlank_word_append (isWord_reverse v ▸ hv),
    ← List.reverse_append, List.reverse_reverse]

/-- A blank before a word is trimmed. -/
theorem trimText_blank_word {w : List Char} (hw : isWord w = true) : trimText (' ' :: w) = w := by
  rw [trimText, List.dropWhile_cons_of_pos (by decide), dropWhile_isBlank_word hw,
    dropWhile_isBlank_word (isWord_reverse w ▸ hw), List.reverse_reverse]

theorem splitCommas_of_not_mem {w : List Char} (h : ',' ∉ w) : splitCommas w = [w] := by
  induction w with
  | nil => rfl
  | cons c w ih =>
    simp only [List.mem_cons, not_or] at h
    obtain ⟨hc, hw⟩ := h
    simp [splitCommas, ih hw, Ne.symm hc]

/-- The first comma ends the first part. -/
theorem splitCommas_append_comma {w : List Char} (h : ',' ∉ w) (t : List Char) :
    splitCommas (w ++ ',' :: t) = w :: splitCommas t := by
  induction w with
  | nil => rfl
  | cons c w ih =>
    simp only [List.mem_cons, not_or] at h
    obtain ⟨hc, hw⟩ := h
    simp [splitCommas, ih hw, Ne.symm hc]

/-- A mnemonic is read as its operation. -/
theorem find?_mnemonicText (o : Operation) :
    allOperations.find? (fun o' => mnemonicText o' == mnemonicText o) = some o := by
  cases o <;> decide

/-! ### Reading a line -/

/-- A line of a mnemonic, a blank and a text that ends in a word is cut at that blank: what follows
is the operands. -/
theorem readLine_mnemonic (o : Operation) {t v : List Char} (hv : isWord v = true) (ht : ';' ∉ t) :
    readLine (mnemonicText o ++ (' ' :: t) ++ v) =
      readOperands o ((splitCommas (' ' :: t ++ v)).map trimText) := by
  have hm := isWord_mnemonicText o
  have hnb : ∀ c ∈ mnemonicText o, (!isBlank c) = true := fun c hc => by
    simp [((isWord_iff.mp hm).2 c hc).1]
  have hcomment : ';' ∉ mnemonicText o ++ (' ' :: t) ++ v := by
    obtain ⟨-, hmc⟩ := not_mem_blank_word hm
    obtain ⟨-, hvc⟩ := not_mem_blank_word hv
    simp only [List.mem_append, List.mem_cons, not_or] at *
    exact ⟨⟨hmc.2, by decide, ht⟩, hvc.2⟩
  rw [readLine, withoutComment_of_not_mem hcomment, trimText_between_words hm hv, List.append_assoc,
    List.takeWhile_append_of_pos hnb, List.dropWhile_append_of_pos hnb]
  simp [isBlank, find?_mnemonicText]

theorem readLine_oneOperand (o : Operation) {a : List Char} (ha : isWord a = true) :
    readLine (oneOperand o a) = readOperands o [a] := by
  obtain ⟨hcomma, -⟩ := not_mem_blank_word ha
  rw [oneOperand, readLine_mnemonic o ha (by simp), List.singleton_append,
    splitCommas_of_not_mem hcomma, List.map_singleton, trimText_blank_word ha]

theorem readLine_twoOperands (o : Operation) {a b : List Char} (ha : isWord a = true)
    (hb : isWord b = true) : readLine (twoOperands o a b) = readOperands o [a, b] := by
  obtain ⟨hacomma, hacomment⟩ := not_mem_blank_word ha
  obtain ⟨hbcomma, -⟩ := not_mem_blank_word hb
  have hline : twoOperands o a b = mnemonicText o ++ (' ' :: (a ++ [',', ' '])) ++ b := by
    simp [twoOperands, oneOperand]
  have hoperands : ' ' :: (a ++ [',', ' ']) ++ b = (' ' :: a) ++ ',' :: (' ' :: b) := by simp
  rw [hline, readLine_mnemonic o hb (by simpa using hacomment), hoperands,
    splitCommas_append_comma hacomma, splitCommas_of_not_mem hbcomma, List.map_cons,
    List.map_singleton, trimText_blank_word ha, trimText_blank_word hb]

/-! ### Reading an operand -/

@[simp] theorem readReg_regText (r : Reg) : readReg (regText r) = some r := by
  revert r
  decide

theorem readWidth_widthText {fn : BitVec 8} (h : sizeCodeOk fn = true) :
    readWidth (widthText fn) = some fn := by
  obtain rfl | rfl | rfl | rfl := sizeCode_cases fn h <;> decide

theorem readCase_caseText {fn : BitVec 8} (h : caseCodeOk fn = true) :
    readCase (caseText fn) = some fn := by
  obtain rfl | rfl := caseCode_cases fn h <;> decide

/-- The text of a command of one register is read back. -/
theorem readLine_D {o : Operation} {f : Reg → Instr} (ho : ∀ args, readOperands o args = readD f args)
    (d : Reg) : readLine (oneOperand o (regText d)) = some (f d) := by
  rw [readLine_oneOperand o (isWord_regText d), ho, readD, readReg_regText, Option.map_some]

/-- The text of a command of two registers is read back. -/
theorem readLine_DS {o : Operation} {f : Reg → Reg → Instr}
    (ho : ∀ args, readOperands o args = readDS f args) (d r : Reg) :
    readLine (twoOperands o (regText d) (regText r)) = some (f d r) := by
  rw [readLine_twoOperands o (isWord_regText d) (isWord_regText r), ho]
  simp only [readDS, readReg_regText]

/-- The text of a command of a register and a modifier is read back. -/
theorem readLine_fn {o : Operation} {f : Reg → BitVec 8 → Instr}
    {modifier : List Char → Option (BitVec 8)} {m : List Char} {fn : BitVec 8}
    (ho : ∀ args, readOperands o args = readFn f modifier args) (hm : isWord m = true)
    (hfn : modifier m = some fn) (r : Reg) :
    readLine (twoOperands o (regText r) m) = some (f r fn) := by
  rw [readLine_twoOperands o (isWord_regText r) hm, ho]
  simp only [readFn, readReg_regText, hfn]

/-- The text of a legal command reads back as that command (30_encoding.md R85). -/
theorem readLine_asmText {i : Instr} (h : i.wellFormed = true) : readLine (asmText i) = some i := by
  cases i with
  | clr d | lddec d | ldbytes d | ldhex d | neg d | negtc d => exact readLine_D (fun _ => rfl) d
  | mov d r | cmp d r | add d r | sub d r | subtc d r | mul d r =>
    exact readLine_DS (fun _ => rfl) d r
  | ldu d fn => exact readLine_fn (fun _ => rfl) (isWord_widthText fn) (readWidth_widthText h) d
  | tohex r fn => exact readLine_fn (fun _ => rfl) (isWord_caseText fn) (readCase_caseText h) r

/-- Settles O6: the line is cut back into the words it was made of, and each word is read back. -/
theorem assemblerReadsWhatItWrites : Obligations.AssemblerReadsWhatItWrites := by
  intro i h
  have hread := readLine_asmText h
  exact ⟨hread, by rw [assemble, hread, Option.map_some]⟩

end Sys2Proof.Machine
end

section
/-! Proofs about the construction commands (40_construction.md): CLR, MOV, LDU with the source's
half-word loop, LDDEC in both modes, LDBYTES. -/

namespace Sys2Proof.Machine

open Sys2Proof.Laws Sys2Proof.Claims

/-! ### The words of the construction commands -/

theorem opcField_packWord (fn : BitVec 8) (rs rd : Reg) (opc : BitVec 8) :
    opcField (packWord fn rs rd opc) = opc := by
  apply BitVec.eq_of_toNat_eq
  have hopc := opc.isLt
  simp only [opcField, BitVec.extractLsb'_toNat, packWord_toNat, Nat.shiftRight_eq_div_pow]
  omega

/-- The word of a command carries its OPC (30_encoding.md R85). -/
theorem opcField_encode (i : Instr) : opcField (encode i) = opcOf (operation i) := by
  cases i <;> exact opcField_packWord _ _ _ _

/-- The word of a legal command decodes to it (30_encoding.md R85). -/
theorem decode_of_eq_encode {c : Word} {i : Instr} (hc : c = encode i) (h : i.wellFormed = true) :
    decode c = .ok i := by
  rw [hc]
  exact decodeEncodeRoundTrip i h

/-- Only the word of a legal command decodes (30_encoding.md R76). -/
theorem wellFormed_of_decode_encode {i j : Instr} (h : decode (encode i) = .ok j) :
    i.wellFormed = true := by
  obtain ⟨o, hopc, hmask, -⟩ := decode_eq_ok _ _ h
  have ho : some (operation i) = some o := by
    rw [← operationOf_opcOf, ← operationOf_opcOf, ← hopc, opcField_encode]
  cases ho
  have hwf := instrOf_wellFormed hmask
  rwa [instrOf_encode] at hwf

/-- The word of a command that is not legal raises E_ILLEGAL (30_encoding.md R80,
60_exceptions.md R161). -/
theorem runCommand_encode_of_not_wellFormed {i : Instr} (h : i.wellFormed = false) (s : State) :
    runCommand (encode i) s = .next (raised s .illegal) := by
  obtain ⟨j, hj, -⟩ | ⟨e, -, hrun⟩ := runCommand_cases (encode i) s
  · exact absurd (wellFormed_of_decode_encode hj) (by simp [h])
  · exact hrun

/-! ### CLR and MOV -/

/-- Settles O8: CLR is total, and its word is the encoding of CLR. -/
theorem clrWritesZero : Obligations.ClrWritesZero := by
  intro d s
  exact ⟨decode_of_eq_encode (cmdWord_eq_packWord 0x01#8 0#8 d 0) rfl, rfl⟩

/-- Settles O9: where RD = RS the register is written with what it holds. -/
theorem movCopies : Obligations.MovCopies := by
  intro d r s
  have hkeep : (s.setV d (s.getV r)).getV r = s.getV r := by
    rw [State.getV_setV, ite_self]
  exact ⟨decode_of_eq_encode (cmdWord_eq_packWord 0x02#8 0#8 d r) rfl, rfl, hkeep⟩

/-! ### LDU -/

/-- A number that fits is the number of its limbs. -/
theorem val_limbsOf_of_lt {L x : Nat} (h : x < 2 ^ (32 * L)) : val (limbsOf L x) = x := by
  rw [val_limbsOf, Nat.mod_eq_of_lt h]

/-- The statements' word of LDU with size code `k` (30_encoding.md R77). -/
theorem cmdWord_ldu (d : Reg) {k : Nat} (hk : k < 256) :
    cmdWord 0x03 d 0 k = encode (.ldu d (BitVec.ofNat 8 k)) := by
  have h := cmdWord_eq_packWord 0x03#8 (BitVec.ofNat 8 k) d 0
  rwa [show (BitVec.ofNat 8 k).toNat = k from Nat.mod_eq_of_lt hk] at h

/-- The size codes 0 to 3 are legal and pick 8, 16, 32 and 64 bits (30_encoding.md R77). -/
theorem sizeCodeOk_and_lduWidth {k : Nat} (hk : k < 4) :
    sizeCodeOk (BitVec.ofNat 8 k) = true ∧ lduWidth (BitVec.ofNat 8 k) = 8 * 2 ^ k ∧
      8 * 2 ^ k ≤ 64 := by
  revert k
  decide

/-- No other size code is legal (30_encoding.md R76). -/
theorem sizeCodeOk_of_four_le {k : Nat} (hk : 4 ≤ k) (hk' : k < 256) :
    sizeCodeOk (BitVec.ofNat 8 k) = false := by
  rw [← Bool.not_eq_true]
  intro h
  have hn : (BitVec.ofNat 8 k).toNat = k := Nat.mod_eq_of_lt hk'
  have hlt : (BitVec.ofNat 8 k).toNat < 4 := by
    obtain h0 | h0 | h0 | h0 := sizeCode_cases _ h <;> rw [h0] <;> decide
  omega

/-- A slice of SCALAR fits every width: w <= 64 < N (40_construction.md R103). -/
theorem scalarSlice_lt (s : State) {w : Nat} (hw : w ≤ 64) :
    scalarSlice s.scalar w < 2 ^ (32 * s.limbs) := by
  have hL : 3 ≤ s.limbs := s.params.width.lower
  exact (Nat.mod_lt _ (Nat.two_pow_pos w)).trans_le (Nat.pow_le_pow_right (by decide) (by omega))

/-- Settles O10: the slice fits in N bits, and only size codes 0 to 3 decode. -/
theorem lduLoadsTheLowBitsOfScalar : Obligations.LduLoadsTheLowBitsOfScalar := by
  intro d k s
  refine ⟨fun hk => ?_, fun hk hk' => ?_⟩
  · obtain ⟨hok, hw, hle⟩ := sizeCodeOk_and_lduWidth hk
    have hval := val_limbsOf_of_lt (scalarSlice_lt s hle)
    refine ⟨decode_of_eq_encode (cmdWord_ldu d (by omega)) hok,
      limbsOf s.limbs (scalarSlice s.scalar (8 * 2 ^ k)), ?_, limbsOf_length _ _, hval,
      fun i _ => ?_⟩
    · rw [← hw]
      rfl
    · rw [limbAt_toNat, hval]
      rfl
  · rw [cmdWord_ldu d hk']
    exact runCommand_encode_of_not_wellFormed (i := .ldu d _) (sizeCodeOk_of_four_le hk hk') s

theorem limbsOf_zero (L : Nat) : limbsOf L 0 = zeroValue L :=
  val_injective (by simp) (by simp [val_limbsOf])

/-- The loop from limb i + 1 on leaves limb 0. -/
theorem halfWordLoop_cons (steps i v : Nat) (x : Limb) (tmp : Value) :
    halfWordLoop steps (i + 1) v (x :: tmp) = x :: halfWordLoop steps i v tmp := by
  induction steps generalizing i v tmp with
  | zero => rfl
  | succ k ih => exact ih (i + 1) (v >>> 32) (tmp.set i (BitVec.ofNat 32 v))

/-- The loop stores the limbs of a number of at most as many half-words as it takes steps
(40_construction.md R104). -/
theorem halfWordLoop_zeroValue {steps L v : Nat} (hL : steps ≤ L) (hv : v < 2 ^ (32 * steps)) :
    halfWordLoop steps 0 v (zeroValue L) = limbsOf L v := by
  induction steps generalizing L v with
  | zero =>
    obtain rfl : v = 0 := by simpa using hv
    exact (limbsOf_zero L).symm
  | succ k ih =>
    obtain ⟨L, rfl⟩ := Nat.exists_eq_add_of_le' (Nat.le_of_add_left_le hL)
    have hrest : v / 2 ^ 32 < 2 ^ (32 * k) :=
      Nat.div_lt_of_lt_mul (by rwa [two_pow_limb_succ] at hv)
    calc halfWordLoop (k + 1) 0 v (zeroValue (L + 1))
        = halfWordLoop k 1 (v >>> 32) (BitVec.ofNat 32 v :: zeroValue L) := rfl
      _ = BitVec.ofNat 32 v :: halfWordLoop k 0 (v >>> 32) (zeroValue L) := halfWordLoop_cons ..
      _ = limbsOf (L + 1) v := by
        rw [Nat.shiftRight_eq_div_pow, ih (by omega) hrest, limbsOf_succ]

/-- Settles O11: a number of at most 32 bits is stored as one step of the loop, one of 64 bits as
two. -/
theorem lduSourceLoopWritesTheSameLimbs : Obligations.LduSourceLoopWritesTheSameLimbs := by
  intro L w v hL hw hv
  obtain hw32 | rfl : w ≤ 32 ∨ w = 64 := by omega
  · have hv32 : v < 2 ^ (32 * 1) := hv.trans_le (Nat.pow_le_pow_right (by decide) hw32)
    rw [lduSourceForm, if_neg (by omega)]
    exact halfWordLoop_zeroValue (steps := 1) (by omega) hv32
  · exact halfWordLoop_zeroValue (steps := 2) (by omega) hv

/-! ### Digit sequences -/

/-- Digit t from the right of the number a digit sequence spells. -/
theorem positional_reverse_digit {base : Nat} (ds : List Nat) (h : ∀ d ∈ ds, d < base) (t : Nat) :
    positional base ds.reverse / base ^ t % base = ds.getD t 0 := by
  induction ds generalizing t with
  | nil => simp [positional]
  | cons d ds ih =>
    have hd : d < base := h d (by simp)
    rw [positional_reverse_cons]
    cases t with
    | zero => simp [Nat.mod_eq_of_lt hd]
    | succ t =>
      have hdiv : (positional base ds.reverse * base + d) / base = positional base ds.reverse := by
        rw [Nat.mul_comm, Nat.mul_add_div (by omega), Nat.div_eq_of_lt hd, Nat.add_zero]
      rw [Nat.pow_succ', ← Nat.div_div_eq_div_mul, hdiv, ih (fun x hx => h x (by simp [hx])),
        List.getD_cons_succ]

/-- Only zeros spell 0. -/
theorem forall_eq_zero_of_positional {base : Nat} (hb : 0 < base) {ds : List Nat}
    (h : positional base ds = 0) : ∀ d ∈ ds, d = 0 := by
  induction ds with
  | nil => simp
  | cons d ds ih =>
    simp only [positional, Nat.add_eq_zero_iff, Nat.mul_eq_zero, Nat.pow_eq_zero] at h
    obtain ⟨hd, hrest⟩ := h
    simpa [show d = 0 by omega] using ih hrest

/-- A sequence read from the right. -/
theorem reverse_map_range {α : Type} (f : Nat → α) (n : Nat) :
    ((List.range n).map f).reverse = (List.range n).map (fun j => f (n - 1 - j)) := by
  apply List.ext_getElem (by simp)
  intro j h1 h2
  simp

theorem getD_map_range (f : Nat → Nat) (n t : Nat) :
    ((List.range n).map f).getD t 0 = if t < n then f t else 0 := by
  by_cases h : t < n
  · simp [List.getD, h]
  · simp [List.getD, h]

/-! ### LDBYTES -/

/-- The number of the byte buffer as the statements write it (40_construction.md R109). -/
theorem bytesNumber_bufPrefix (s : State) (n : Nat) :
    bytesNumber (s.bufPrefix n) = spelled s 256 BitVec.toNat n := by
  rw [bytesNumber, State.bufPrefix, List.map_map, positional_map_range]
  rfl

/-- n bytes spell a number below 2^(8n). -/
theorem bytesNumber_lt (bs : List Byte) : bytesNumber bs < 2 ^ (8 * bs.length) := by
  have h := positional_lt 256 (bs.map BitVec.toNat) (by simpa using fun b _ => b.isLt)
  rwa [List.length_map, show 256 = 2 ^ 8 by rfl, ← Nat.pow_mul] at h

/-- Byte t of the number of the byte buffer (40_construction.md R109). -/
theorem bytesNumber_bufPrefix_byte (s : State) (n t : Nat) :
    bytesNumber (s.bufPrefix n) / 256 ^ t % 256 =
      if t < n then (s.readBuf (n - 1 - t)).toNat else 0 := by
  have h := positional_reverse_digit (base := 256) ((s.bufPrefix n).map BitVec.toNat).reverse
    (by simpa using fun b _ => b.isLt) t
  rw [List.reverse_reverse, State.bufPrefix, List.map_map, reverse_map_range,
    getD_map_range] at h
  rw [bytesNumber, State.bufPrefix, List.map_map]
  exact h

/-- Settles O16: LEN bytes spell a number that N bits hold. -/
theorem ldbytesReadsBigEndian : Obligations.LdbytesReadsBigEndian := by
  intro d s
  refine ⟨decode_of_eq_encode (cmdWord_eq_packWord 0x05#8 0#8 d 0) rfl, fun hlen => ?_,
    fun hlen => ?_⟩
  · have hfits : bytesNumber (s.bufPrefix s.len.toNat) < 2 ^ (32 * s.limbs) :=
      (bytesNumber_lt _).trans_le <| Nat.pow_le_pow_right (by decide) <| by
        rw [State.bufPrefix, List.length_map, List.length_range]
        omega
    have hval := val_limbsOf_of_lt hfits
    obtain ⟨hgt, -⟩ | ⟨-, hexec⟩ := execLdbytes_cases d s
    · omega
    · refine ⟨_, hexec, limbsOf_length _ _, hval.trans (bytesNumber_bufPrefix s _), fun t _ => ?_⟩
      rw [hval, bytesNumber_bufPrefix_byte]
  · obtain ⟨-, hexec⟩ | ⟨hle, -⟩ := execLdbytes_cases d s
    · exact hexec
    · omega

/-! ### LDDEC: the string -/

/-- The character check of 40_construction.md R105. -/
theorem bufPrefix_all_isDigit_iff {s : State} :
    (s.bufPrefix s.len.toNat).all isDigit = true ↔ allDigits s := by
  simp [State.bufPrefix, isDigit, allDigits]

/-- The number of the string as the statements write it (40_construction.md R106). -/
theorem positional_digitValues (s : State) :
    positional 10 (digitValues (s.bufPrefix s.len.toNat)) = decimalValue s := by
  rw [digitValues, State.bufPrefix, List.map_map, positional_map_range]
  rfl

/-- The digits in the order of 40_construction.md R107. -/
theorem reverse_digitValues (s : State) :
    (digitValues (s.bufPrefix s.len.toNat)).reverse = digitsFromTheRight s := by
  rw [digitValues, State.bufPrefix, List.map_map, reverse_map_range]
  rfl

/-- LDDEC of a string of digits completes with what the conversion gives, or raises E_OVERFLOW
(40_construction.md R105). -/
theorem exec_lddec_of_allDigits (d : Reg) {s : State} (hlen : s.len.toNat ≤ 256)
    (hd : allDigits s) :
    let r := decimalResult s.params.decMode s.limbs (digitValues (s.bufPrefix s.len.toNat))
    (r = none → exec (.lddec d) s = .next (raised s .overflow)) ∧
    (∀ x, r = some x → exec (.lddec d) s = .next (endsWith s (s.v.set d x))) := by
  have hall := bufPrefix_all_isDigit_iff.mpr hd
  obtain ⟨hgt, -⟩ | ⟨-, hno, -⟩ | ⟨-, -, hr, hexec⟩ | ⟨x, -, -, hr, hexec⟩ := execLddec_cases d s
  · omega
  · simp [hall] at hno
  · exact ⟨fun _ => hexec, by simp [hr]⟩
  · exact ⟨by simp [hr], fun y hy => by cases hr.symm.trans hy; exact hexec⟩

/-! ### LDDEC, DEC_MODE = exact -/

/-- Settles O12: the conversion rejects exactly the numbers that N bits do not hold. -/
theorem lddecExactValueOrOverflow : Obligations.LddecExactValueOrOverflow := by
  intro d s hm hlen hd
  obtain ⟨hnone, hsome⟩ := exec_lddec_of_allDigits d hlen hd
  simp only [hm, decimalResult, decimalExact, positional_digitValues] at hnone hsome
  refine ⟨decode_of_eq_encode (cmdWord_eq_packWord 0x04#8 0#8 d 0) rfl, fun hlt => ?_,
    fun hge => hnone (if_pos hge)⟩
  exact ⟨_, hsome _ (if_neg (Nat.not_le_of_lt hlt)), limbsOf_length _ _, val_limbsOf_of_lt hlt⟩

/-! ### LDDEC, DEC_MODE = source -/

/-- The limbs `tmp` once `ws` is flushed: the rest is 0 (40_construction.md R107). -/
def flushedValue (L : Nat) (ws : List Nat) : Value :=
  (List.range L).map (fun i => BitVec.ofNat 32 (ws.getD i 0))

@[simp] theorem flushedValue_length (L : Nat) (ws : List Nat) : (flushedValue L ws).length = L := by
  simp [flushedValue]

theorem flushedValue_nil (L : Nat) : flushedValue L [] = zeroValue L := by
  simp [flushedValue, zeroValue]

theorem limbAt_flushedValue {L i : Nat} (ws : List Nat) (hi : i < L) :
    limbAt (flushedValue L ws) i = BitVec.ofNat 32 (ws.getD i 0) := by
  simp [limbAt, flushedValue, List.getD, hi]

/-- Flushing a half-word writes the next limb. -/
theorem flushedValue_append (L : Nat) (ws : List Nat) (n : Nat) :
    flushedValue L (ws ++ [n]) = (flushedValue L ws).set ws.length (BitVec.ofNat 32 n) := by
  apply List.ext_getElem (by simp)
  intro i h1 h2
  simp only [flushedValue, List.getElem_map, List.getElem_range, List.getElem_set]
  obtain hlt | rfl | hgt := Nat.lt_trichotomy i ws.length
  · simp [List.getD, List.getElem?_append_left hlt, Nat.ne_of_gt hlt]
  · simp
  · simp [List.getD, Nat.ne_of_lt hgt, Nat.le_of_lt hgt, hgt]

/-- A number of one half-word is limb 0 alone. -/
theorem flushedValue_singleton (L : Nat) {x : Nat} (hx : x < 2 ^ 32) :
    flushedValue L [x] = limbsOf L x := by
  apply List.ext_getElem (by simp)
  intro i h1 h2
  cases i with
  | zero => simp [flushedValue, limbsOf]
  | succ i =>
    have hi : 2 ^ 32 ≤ 2 ^ (32 * (i + 1)) := Nat.pow_le_pow_right (by decide) (by omega)
    simp [flushedValue, limbsOf, Nat.shiftRight_eq_div_pow, Nat.div_eq_of_lt (hx.trans_le hi)]

/-- The accumulator after one more digit, as a number. -/
theorem toNat_accumulate (acc mult : MachineWord) (d : Nat) :
    (acc + BitVec.ofNat 64 d * mult).toNat = (acc.toNat + d * mult.toNat) % 2 ^ 64 := by
  rw [BitVec.toNat_add, BitVec.toNat_mul, BitVec.toNat_ofNat, Nat.mod_mul_mod, Nat.add_mod_mod]

/-- The source's loop on machine words is the loop in plain numbers (40_construction.md R107). -/
theorem decimalSourceLoop_eq_sourceSteps (L : Nat) (ds flushed : List Nat)
    (acc mult : MachineWord) :
    decimalSourceLoop L ds (flushedValue L flushed) acc mult flushed.length =
      (sourceSteps L ds flushed acc.toNat mult.toNat).map (flushedValue L) := by
  induction ds generalizing flushed acc mult with
  | nil =>
    have hacc : acc.toNat = 0 ↔ acc = 0#64 := by rw [← BitVec.toNat_inj]; rfl
    simp only [decimalSourceLoop, sourceSteps, hacc]
    split
    · rfl
    · split
      · rfl
      · rw [Option.map_some, flushedValue_append, BitVec.ofNat_toNat]
  | cons d ds ih =>
    have hmult : (mult * 10#64).toNat = mult.toNat * 10 % 2 ^ 64 := BitVec.toNat_mul ..
    simp only [decimalSourceLoop, sourceSteps, ← toNat_accumulate]
    generalize acc + BitVec.ofNat 64 d * mult = acc'
    by_cases hlt : acc'.toNat < 2 ^ 32 - 1
    · rw [if_pos hlt, if_neg (Nat.not_le_of_lt hlt), ih, hmult]
    · rw [if_neg hlt, if_pos (Nat.le_of_not_lt hlt)]
      split
      · rfl
      · have hflush := ih (flushed ++ [acc'.toNat % 2 ^ 32]) (acc' >>> 32) 1#64
        rw [flushedValue_append, ofNat_word_mod, BitVec.ofNat_toNat, List.length_append,
          BitVec.toNat_ushiftRight, Nat.shiftRight_eq_div_pow] at hflush
        exact hflush

/-- The conversion of DEC_MODE = source in plain numbers. -/
theorem decimalSource_eq_sourceSteps (L : Nat) (ds : List Nat) :
    decimalSource L ds = (sourceSteps L ds.reverse [] 0 1).map (flushedValue L) := by
  rw [decimalSource, ← flushedValue_nil]
  exact decimalSourceLoop_eq_sourceSteps L ds.reverse [] 0#64 1#64

/-- What the loop keeps: the accumulator that a step hands on is below 2^32 (40_construction.md
R107). -/
theorem high_half_lt (n : Nat) : n % 2 ^ 64 / 2 ^ 32 < 2 ^ 32 :=
  Nat.div_lt_of_lt_mul (Nat.mod_lt _ (Nat.two_pow_pos 64))

/-- Every number the loop flushes is a half-word. -/
theorem sourceSteps_lt {L : Nat} {ds flushed ws : List Nat} {acc mult : Nat} (hacc : acc < 2 ^ 32)
    (hf : ∀ w ∈ flushed, w < 2 ^ 32) (h : sourceSteps L ds flushed acc mult = some ws) :
    ∀ w ∈ ws, w < 2 ^ 32 := by
  induction ds generalizing flushed acc mult with
  | nil =>
    simp only [sourceSteps] at h
    split at h
    · cases h; exact hf
    · split at h
      · cases h
      · cases h; exact List.forall_mem_append.mpr ⟨hf, by simpa using hacc⟩
  | cons d ds ih =>
    simp only [sourceSteps] at h
    split at h
    · exact ih (by omega) hf h
    · split at h
      · cases h
      · have hlow := Nat.mod_lt ((acc + d * mult) % 2 ^ 64) (Nat.two_pow_pos 32)
        exact ih (high_half_lt _) (List.forall_mem_append.mpr ⟨hf, by simpa using hlow⟩) h

/-- Zeros to the left of the digits read so far change nothing: an accumulator of 2^32 - 1 is
flushed at the first of them and not at the end. -/
theorem sourceSteps_zeros (L : Nat) {zs : List Nat} (hz : ∀ d ∈ zs, d = 0) (flushed : List Nat)
    {acc : Nat} (hacc : acc < 2 ^ 32) (mult : Nat) :
    sourceSteps L zs flushed acc mult = sourceSteps L [] flushed acc mult := by
  induction zs generalizing flushed acc mult with
  | nil => rfl
  | cons d zs ih =>
    obtain ⟨rfl, hzs⟩ := List.forall_mem_cons.mp hz
    have hkeep : (acc + 0 * mult) % 2 ^ 64 = acc := by omega
    rw [sourceSteps.eq_2, hkeep]
    by_cases hlt : acc < 2 ^ 32 - 1
    · rw [if_pos hlt, ih hzs flushed hacc]
      rfl
    · obtain rfl : acc = 2 ^ 32 - 1 := by omega
      rw [if_neg hlt, ih hzs _ (by decide)]
      simp [sourceSteps]

/-- The same behind any digits. -/
theorem sourceSteps_append_zeros (L : Nat) (ds : List Nat) {zs : List Nat} (hz : ∀ d ∈ zs, d = 0)
    (flushed : List Nat) {acc : Nat} (hacc : acc < 2 ^ 32) (mult : Nat) :
    sourceSteps L (ds ++ zs) flushed acc mult = sourceSteps L ds flushed acc mult := by
  induction ds generalizing flushed acc mult with
  | nil => exact sourceSteps_zeros L hz flushed hacc mult
  | cons d ds ih =>
    rw [List.cons_append, sourceSteps, sourceSteps, ih _ (high_half_lt _)]
    split
    · exact ih _ (by omega) _
    · rfl

/-- Settles O15: leading zeros spell nothing, and the source's loop meets them last. -/
theorem leadingZerosDoNotMatter : Obligations.LeadingZerosDoNotMatter := by
  intro m L z ds
  cases m with
  | exact => simp only [decimalResult, decimalExact, positional_leading_zeros]
  | source =>
    rw [decimalResult, decimalResult, decimalSource_eq_sourceSteps, decimalSource_eq_sourceSteps,
      List.reverse_append, sourceSteps_append_zeros L _ (by simp) _ (by decide)]

/-- The loop is exact while the number stays at most 2^32 - 1: `m` is the power of ten that `mult`
holds modulo 2^64 (40_construction.md R107). -/
theorem sourceSteps_exact {L : Nat} (hL : 0 < L) (ds : List Nat) {acc m : Nat} (hm : 0 < m)
    (h : acc + m * positional 10 ds.reverse ≤ 2 ^ 32 - 1) :
    (sourceSteps L ds [] acc (m % 2 ^ 64)).map (flushedValue L) =
      some (limbsOf L (acc + m * positional 10 ds.reverse)) := by
  induction ds generalizing acc m with
  | nil =>
    have hpos : acc + m * positional 10 [].reverse = acc := rfl
    rw [hpos] at h ⊢
    by_cases h0 : acc = 0
    · simp [sourceSteps, h0, flushedValue_nil, limbsOf_zero]
    · have hlt : acc < 2 ^ 32 := by omega
      simp [sourceSteps, h0, Nat.not_le_of_lt hL, flushedValue_singleton L hlt]
  | cons d ds ih =>
    have hsplit : acc + m * positional 10 (d :: ds).reverse =
        acc + d * m + m * 10 * positional 10 ds.reverse := by
      rw [positional_reverse_cons]
      ring
    rw [hsplit] at h ⊢
    -- a digit that is not 0 has a power of ten that did not wrap
    have hadd : (acc + d * (m % 2 ^ 64)) % 2 ^ 64 = acc + d * m := by
      rw [Nat.add_mod, Nat.mul_mod_mod, ← Nat.add_mod]
      exact Nat.mod_eq_of_lt (by omega)
    rw [sourceSteps, hadd]
    by_cases hlt : acc + d * m < 2 ^ 32 - 1
    · rw [if_pos hlt, Nat.mod_mul_mod]
      exact ih (by omega) h
    · -- the accumulator is 2^32 - 1, all of the number: the digits to come are zeros
      have hrest : m * 10 * positional 10 ds.reverse = 0 := by omega
      have hzero : ∀ d ∈ ds, d = 0 := by
        have hp : positional 10 ds.reverse = 0 :=
          (Nat.mul_eq_zero.mp hrest).resolve_left (by omega)
        simpa using forall_eq_zero_of_positional (by decide) hp
      have hall : acc + d * m = 2 ^ 32 - 1 := by omega
      rw [hrest, hall, if_neg (by omega), List.length_nil,
        if_neg (Nat.not_le_of_lt hL),
        sourceSteps_zeros L hzero _ (by decide), ← flushedValue_singleton L (by decide)]
      rfl

/-- Settles O14: the conversion is the loop in plain numbers, which flushes the limbs. -/
theorem lddecSourceFollowsTheSteps : Obligations.LddecSourceFollowsTheSteps := by
  intro d s hm hlen hd
  obtain ⟨hnone, hsome⟩ := exec_lddec_of_allDigits d hlen hd
  simp only [hm, decimalResult, decimalSource_eq_sourceSteps, reverse_digitValues] at hnone hsome
  have hL : 3 ≤ s.limbs := s.params.width.lower
  refine ⟨fun h => hnone (by rw [h, Option.map_none]), fun ws h => ?_, fun hle => ?_⟩
  · refine ⟨_, hsome _ (by rw [h, Option.map_some]), flushedValue_length _ _, fun i hi => ?_⟩
    have hws := sourceSteps_lt (by decide) (by simp) h
    have hlt : ws.getD i 0 < 2 ^ 32 := by
      by_cases hlen : i < ws.length
      · simpa [List.getD, hlen] using hws _ (List.getElem_mem hlen)
      · simp [List.getD, hlen]
    rw [limbAt_flushedValue ws hi, BitVec.toNat_ofNat, Nat.mod_eq_of_lt hlt]
  · have hpos : positional 10 (digitsFromTheRight s).reverse = decimalValue s := by
      rw [← reverse_digitValues, List.reverse_reverse, positional_digitValues]
    have hexact := sourceSteps_exact (L := s.limbs) (by omega) (digitsFromTheRight s) (acc := 0)
      (m := 1) (by decide) (by omega)
    rw [hpos, Nat.zero_add, Nat.one_mul] at hexact
    have hfits : decimalValue s < 2 ^ (32 * s.limbs) :=
      (show decimalValue s < 2 ^ 32 by omega).trans_le (Nat.pow_le_pow_right (by decide) (by omega))
    exact ⟨_, hsome _ hexact, limbsOf_length _ _, val_limbsOf_of_lt hfits⟩

end Sys2Proof.Machine
end

section
/-! Proofs about CMP (41_ordering.md): the structural order from limb 0, and where it agrees with
the order of the values. -/

namespace Sys2Proof.Machine

open Sys2Proof.Claims

/-! ### The structural order by the first limbs -/

theorem lexcmp_cons_of_lt {x y : Limb} (h : x.toNat < y.toNat) (a b : Value) :
    lexcmp (x :: a) (y :: b) = .lt := if_pos h

theorem lexcmp_cons_of_gt {x y : Limb} (h : y.toNat < x.toNat) (a b : Value) :
    lexcmp (x :: a) (y :: b) = .gt := (if_neg h.not_gt).trans (if_pos h)

@[simp] theorem lexcmp_cons_same (x : Limb) (a b : Value) :
    lexcmp (x :: a) (x :: b) = lexcmp a b :=
  (if_neg (lt_irrefl _)).trans (if_neg (lt_irrefl _))

/-- The three branches of `lexcmp` (41_ordering.md R121). -/
theorem limb_trichotomy (x y : Limb) : x.toNat < y.toNat ∨ x = y ∨ y.toNat < x.toNat := by
  rw [← BitVec.toNat_inj]
  exact lt_trichotomy _ _

/-! ### What each result says -/

/-- EQ is equality of the limbs (41_ordering.md R121). -/
theorem lexcmp_eq_eq_iff {a b : Value} (hl : a.length = b.length) : lexcmp a b = .eq ↔ a = b := by
  induction a generalizing b with
  | nil => simp [List.eq_nil_of_length_eq_zero hl.symm, lexcmp]
  | cons x a ih =>
    obtain _ | ⟨y, b⟩ := b
    · cases hl
    · obtain h | rfl | h := limb_trichotomy x y
      · rw [lexcmp_cons_of_lt h]
        simp [BitVec.toNat_inj.not.mp h.ne]
      · simp [ih (Nat.succ.inj hl)]
      · rw [lexcmp_cons_of_gt h]
        simp [BitVec.toNat_inj.not.mp h.ne']

/-- GT is LT with the operands exchanged. -/
theorem lexcmp_eq_gt_iff (a b : Value) : lexcmp a b = .gt ↔ lexcmp b a = .lt := by
  induction a generalizing b with
  | nil => cases b <;> simp [lexcmp]
  | cons x a ih =>
    obtain _ | ⟨y, b⟩ := b
    · simp [lexcmp]
    · obtain h | rfl | h := limb_trichotomy x y
      · simp [lexcmp_cons_of_lt h, lexcmp_cons_of_gt h]
      · simp [ih]
      · simp [lexcmp_cons_of_lt h, lexcmp_cons_of_gt h]

/-- LT is "less" at the first limb that differs (41_ordering.md R121). -/
theorem lexcmp_eq_lt_iff {a b : Value} (hl : a.length = b.length) :
    lexcmp a b = .lt ↔ ∃ i < a.length,
      (∀ j < i, limbAt a j = limbAt b j) ∧ (limbAt a i).toNat < (limbAt b i).toNat := by
  induction a generalizing b with
  | nil => simp [lexcmp]
  | cons x a ih =>
    obtain _ | ⟨y, b⟩ := b
    · cases hl
    · -- the first differing limb is limb 0, or limb 0 is equal and it is in the rest
      simp only [List.length_cons, Nat.exists_lt_succ_left, Nat.forall_lt_succ_left,
        limbAt_cons_zero, limbAt_cons_succ]
      obtain h | rfl | h := limb_trichotomy x y
      · simp [lexcmp_cons_of_lt h, h]
      · simp [ih (Nat.succ.inj hl)]
      · simp [lexcmp_cons_of_gt h, h.not_gt, BitVec.toNat_inj.not.mp h.ne']

/-- Settles O18: GT is LT with the operands exchanged, and equal numbers have equal limbs. -/
theorem cmpIsTheFirstDifferingLimb : Obligations.CmpIsTheFirstDifferingLimb := by
  intro d r s ⟨hlen, _⟩
  have hl : (s.getV d).length = (s.getV r).length := (hlen d).trans (hlen r).symm
  refine ⟨decode_of_eq_encode (cmdWord_eq_packWord 0x08#8 0#8 d r) rfl,
    lexcmp (s.getV d) (s.getV r), exec_cmp d r s, ?_, ?_, ?_⟩
  · rw [lexcmp_eq_lt_iff hl, hlen d]
  · rw [lexcmp_eq_gt_iff, lexcmp_eq_lt_iff hl.symm, hlen r]
    simp only [eq_comm (a := limbAt (s.getV r) _)]
  · exact (lexcmp_eq_eq_iff hl).trans ⟨congrArg val, val_injective hl⟩

/-! ### Values that differ in one limb -/

/-- A value is its limbs. -/
theorem ext_limbAt {a b : Value} (hl : a.length = b.length)
    (h : ∀ j < a.length, limbAt a j = limbAt b j) : a = b :=
  List.ext_getElem hl fun j ha hb => by simpa [limbAt, List.getD, ha, hb] using h j ha

/-- Where only limb k can differ, its order is the order of the values: it has weight 2^(32k). -/
theorem val_lt_iff_of_one_limb {a b : Value} {k : Nat} (hl : a.length = b.length)
    (hk : k < a.length) (h : ∀ j < a.length, j ≠ k → limbAt a j = limbAt b j) :
    val a < val b ↔ (limbAt a k).toNat < (limbAt b k).toNat := by
  have hb : a.set k (limbAt b k) = b := by
    refine ext_limbAt (by rwa [List.length_set]) fun j hj => ?_
    rw [List.length_set] at hj
    rw [limbAt_set _ _ _ _ hk]
    split_ifs with e
    · rw [e]
    · exact h j hj (Ne.symm e)
  have hval := val_set a k (limbAt b k) hk
  rw [hb] at hval
  refine Iff.trans ?_ (Nat.mul_lt_mul_right (Nat.two_pow_pos (32 * k)))
  omega

/-- With exactly one limb different, the structural order is the order of the values
(41_ordering.md R122). -/
theorem lexcmp_eq_lt_iff_val_lt {a b : Value} {k : Nat} (hl : a.length = b.length)
    (hk : k < a.length) (h : ∀ j < a.length, limbAt a j = limbAt b j ↔ j ≠ k) :
    lexcmp a b = .lt ↔ val a < val b := by
  rw [lexcmp_eq_lt_iff hl, val_lt_iff_of_one_limb hl hk fun j hj => (h j hj).mpr]
  refine ⟨fun ⟨i, hi, _, hlt⟩ => ?_, fun hlt => ⟨k, hk, fun j hj => ?_, hlt⟩⟩
  · obtain rfl : i = k := by
      by_contra hik
      rw [(h i hi).mpr hik] at hlt
      exact lt_irrefl _ hlt
    exact hlt
  · exact (h j (hj.trans hk)).mpr hj.ne

/-- Settles O19: both results, the second with the operands exchanged. -/
theorem cmpAgreesWithValuesOnOneLimb : Obligations.CmpAgreesWithValuesOnOneLimb := by
  intro d r s t k ⟨hlen, _⟩ hk h ht
  rw [exec_cmp] at ht
  cases ht
  have hl : (s.getV d).length = (s.getV r).length := (hlen d).trans (hlen r).symm
  have hk' : k < (s.getV d).length := by rwa [hlen d]
  have h' : ∀ j < (s.getV d).length, limbAt (s.getV d) j = limbAt (s.getV r) j ↔ j ≠ k := by
    rwa [hlen d]
  rw [State.finish_cmp, lexcmp_eq_gt_iff]
  exact ⟨lexcmp_eq_lt_iff_val_lt hl hk' h',
    lexcmp_eq_lt_iff_val_lt hl.symm (hl ▸ hk') fun j hj => eq_comm.trans (h' j (hl ▸ hj))⟩

end Sys2Proof.Machine
end

section
/-! Proofs about the arithmetic commands (42_arithmetic.md): NEG and NEGTC, ADD and its carry chain,
SUB and SUBTC, MUL in both modes, and the signed reading of ADD and SUBTC. -/

namespace Sys2Proof.Machine

open Sys2Proof.Config Sys2Proof.Claims

/-! ### The modulus 2^N, its half and its quarter -/

/-- For N >= 2, 2^N is four quarters and 2^(N-1) is two. -/
theorem two_pow_eq_quarters {N : Nat} (h : 2 ≤ N) :
    2 ^ N = 4 * 2 ^ (N - 2) ∧ 2 ^ (N - 1) = 2 * 2 ^ (N - 2) := by
  obtain ⟨n, rfl⟩ := Nat.exists_eq_add_of_le' h
  exact ⟨by rw [Nat.add_sub_cancel, Nat.pow_add, Nat.mul_comm], Nat.pow_succ'⟩

/-- The number of a difference modulo M. -/
theorem natCast_add_sub_mod (a : Nat) {b M : Nat} (h : b ≤ M) :
    (((a + (M - b)) % M : Nat) : Int) = ((a : Int) - b) % M := by
  rw [Int.natCast_emod, Nat.cast_add, Nat.cast_sub h,
    show (a : Int) + (M - b) = a - b + M by ring, Int.add_emod_right]

/-- Adding b and half the modulus subtracts b exactly where b is an odd number of quarters of it. -/
theorem add_add_half_eq_sub_iff (a : Nat) {b q : Nat} (hb : b < 4 * q) :
    (((a + b + 2 * q) % (4 * q) : Nat) : Int) = ((a : Int) - b) % (4 * q : Nat) ↔
      b = q ∨ b = 3 * q := by
  have hdiff : ((a + b + 2 * q : Nat) : Int) - (a - b) = 2 * (b + q : Nat) := by push_cast; ring
  rw [Int.natCast_emod, Int.emod_eq_emod_iff_emod_sub_eq_zero, hdiff, ← Int.dvd_iff_emod_eq_zero]
  constructor
  · intro hdvd
    obtain ⟨k, hk⟩ : 2 * (2 * q) ∣ 2 * (b + q) := by
      rw [← mul_assoc]
      exact_mod_cast hdvd
    have hk' : b + q = 2 * q * k := by
      rw [mul_assoc] at hk
      exact Nat.eq_of_mul_eq_mul_left (by decide) hk
    have hk0 : k ≠ 0 := by rintro rfl; omega
    have hk3 : k < 3 := by nlinarith
    obtain rfl | rfl : k = 1 ∨ k = 2 := by omega
    · left; omega
    · right; omega
  · rintro (rfl | rfl)
    · exact ⟨1, by push_cast; ring⟩
    · exact ⟨2, by push_cast; ring⟩

/-- There is a limb: the width is at least 96 bits (00_scope.md R9). -/
theorem State.limbs_pos (s : State) : 0 < s.limbs :=
  Nat.zero_lt_of_lt s.params.width.lower

theorem State.two_le_width (s : State) : 2 ≤ 32 * s.limbs := by
  have hL := s.limbs_pos
  omega

/-- The value of a register is below 2^N (10_state.md R23). -/
theorem State.val_getV_lt {s : State} (hs : s.wf) (r : Reg) :
    val (s.getV r) < 2 ^ (32 * s.limbs) := by
  rw [← hs.1 r]
  exact val_lt _

/-- Adding a register's value and 2^(N-1) subtracts the value exactly for 2^(N-2) and 3*2^(N-2)
(42_arithmetic.md R131, R135). -/
theorem State.add_val_add_half_eq_sub_iff {s : State} (hs : s.wf) (a : Nat) (r : Reg) :
    (((a + val (s.getV r) + 2 ^ (32 * s.limbs - 1)) % 2 ^ (32 * s.limbs) : Nat) : Int) =
        ((a : Int) - val (s.getV r)) % (2 ^ (32 * s.limbs) : Nat) ↔
      val (s.getV r) = 2 ^ (32 * s.limbs - 2) ∨ val (s.getV r) = 3 * 2 ^ (32 * s.limbs - 2) := by
  have hlt := State.val_getV_lt hs r
  obtain ⟨hM, hH⟩ := two_pow_eq_quarters s.two_le_width
  rw [hM] at hlt ⊢
  rw [hH]
  exact add_add_half_eq_sub_iff a hlt

/-! ### The sign flip -/

/-- The limbs of the flipped value (42_arithmetic.md R131). -/
theorem limbAt_flipSign {L : Nat} {a : Value} (ha : a.length = L) (hL : 0 < L) (i : Nat) :
    limbAt (flipSign L a) i =
      if L - 1 = i then limbAt a (L - 1) ^^^ 0x80000000#32 else limbAt a i := by
  subst ha
  rw [flipSign_eq_set a (List.length_pos_iff.mp hL), limbAt_set _ _ _ _ (by omega)]

/-- The flipped value of a register, in its two forms (42_arithmetic.md R131). -/
theorem State.val_flipSign_getV {s : State} (hs : s.wf) (r : Reg) :
    val (flipSign s.limbs (s.getV r)) = val (s.getV r) ^^^ 2 ^ (32 * s.limbs - 1) ∧
    val (flipSign s.limbs (s.getV r)) =
      (val (s.getV r) + 2 ^ (32 * s.limbs - 1)) % 2 ^ (32 * s.limbs) := by
  have hlen := hs.1 r
  have hL := s.limbs_pos
  have hpos : 0 < (s.getV r).length := by rwa [hlen]
  have hsucc : 32 * s.limbs - 1 + 1 = 32 * s.limbs := by omega
  have hxor : val (flipSign s.limbs (s.getV r)) = val (s.getV r) ^^^ 2 ^ (32 * s.limbs - 1) := by
    rw [← hlen]
    exact val_flipSign _ (List.length_pos_iff.mp hpos)
  refine ⟨hxor, ?_⟩
  rw [hxor, xor_top_bit (32 * s.limbs - 1) _ (by rw [hsucc]; exact State.val_getV_lt hs r), hsucc]

/-- Settles O20: the flip is XOR and addition of 2^(N-1), and it negates where adding 2^(N-1) and
the value to 0 subtracts the value. -/
theorem negFlipsTheTopBit : Obligations.NegFlipsTheTopBit := by
  intro d s hs
  obtain ⟨hxor, hadd⟩ := State.val_flipSign_getV hs d
  have hlimb := limbAt_flipSign (hs.1 d) s.limbs_pos
  refine ⟨decode_of_eq_encode (cmdWord_eq_packWord 0x10#8 0#8 d 0) rfl,
    flipSign s.limbs (s.getV d), rfl, (flipSign_length _ _).trans (hs.1 d),
    fun i hi => ?_, ?_, hxor, hadd, ?_⟩
  · rw [hlimb, if_neg (by omega)]
  · rw [hlimb, if_pos rfl]
  · rw [← State.add_val_add_half_eq_sub_iff hs 0 d,
      ← natCast_add_sub_mod 0 (State.val_getV_lt hs d).le, Nat.cast_inj, hadd, Nat.zero_add, Nat.zero_add]

/-! ### NEGTC, ADD and SUBTC -/

/-- Settles O21: complement and carry negate modulo 2^N. -/
theorem negtcNegatesModulo : Obligations.NegtcNegatesModulo := by
  intro d s ⟨hlen, _⟩
  refine ⟨decode_of_eq_encode (cmdWord_eq_packWord 0x11#8 0#8 d 0) rfl,
    negateTc s.limbs (s.getV d), rfl, ?_, ?_⟩
  · rw [negateTc, rippleAdd_length _ _ _ (by simp [hlen]), complement_length, hlen]
  · rw [← hlen d]
    exact val_negateTc _

/-- The sum of two registers, as the adder writes it (42_arithmetic.md R133). -/
theorem State.rippleAdd_getV {s : State} (hs : s.wf) (d r : Reg) :
    (rippleAdd (s.getV d) (s.getV r) 0).length = s.limbs ∧
    val (rippleAdd (s.getV d) (s.getV r) 0) =
      (val (s.getV d) + val (s.getV r)) % 2 ^ (32 * s.limbs) := by
  have hl : (s.getV d).length = (s.getV r).length := (hs.1 d).trans (hs.1 r).symm
  rw [rippleAdd_length _ _ _ hl, val_rippleAdd _ _ _ hl, hs.1 d]
  exact ⟨rfl, rfl⟩

/-- The difference of two registers, as the complement-and-carry form writes it
(42_arithmetic.md R136). -/
theorem State.subtractTc_getV {s : State} (hs : s.wf) (d r : Reg) :
    (subtractTc (s.getV d) (s.getV r)).length = s.limbs ∧
    (val (subtractTc (s.getV d) (s.getV r)) : Int) =
      ((val (s.getV d) : Int) - val (s.getV r)) % 2 ^ (32 * s.limbs) := by
  have hl : (s.getV d).length = (s.getV r).length := (hs.1 d).trans (hs.1 r).symm
  constructor
  · rw [subtractTc, rippleAdd_length _ _ _ (by simpa using hl), hs.1 d]
  · rw [val_subtractTc _ _ hl, hs.1 d, natCast_add_sub_mod _ (State.val_getV_lt hs r).le]
    norm_cast

/-- The carry into limb i of the ripple-carry adder (42_arithmetic.md R134). -/
def rippleCarry (a b : Value) (carry : Nat) : Nat → Nat
  | 0 => carry
  | i + 1 => ((limbAt a i).toNat + (limbAt b i).toNat + rippleCarry a b carry i) / 2 ^ 32

/-- The carries above limb 0 are those of the other limbs, from the carry out of limb 0. -/
theorem rippleCarry_cons (x y : Limb) (a b : Value) (c i : Nat) :
    rippleCarry (x :: a) (y :: b) c (i + 1) =
      rippleCarry a b ((x.toNat + y.toNat + c) / 2 ^ 32) i := by
  induction i with
  | zero => rfl
  | succ i ih => rw [rippleCarry, ih]; rfl

/-- No carry is above 1 (42_arithmetic.md R134). -/
theorem rippleCarry_le_one (a b : Value) {c : Nat} (hc : c ≤ 1) (i : Nat) :
    rippleCarry a b c i ≤ 1 := by
  induction i with
  | zero => exact hc
  | succ i ih =>
    have ha := (limbAt a i).isLt
    have hb := (limbAt b i).isLt
    rw [rippleCarry]
    omega

/-- Limb i of the sum, from the carry into it (42_arithmetic.md R134). -/
theorem limbAt_rippleAdd {a b : Value} (hl : a.length = b.length) (c : Nat) {i : Nat}
    (hi : i < a.length) :
    (limbAt (rippleAdd a b c) i).toNat =
      ((limbAt a i).toNat + (limbAt b i).toNat + rippleCarry a b c i) % 2 ^ 32 := by
  induction a generalizing b c i with
  | nil => simp at hi
  | cons x a ih =>
    obtain _ | ⟨y, b⟩ := b
    · cases hl
    · cases i with
      | zero => exact BitVec.toNat_ofNat _ _
      | succ i =>
        rw [rippleAdd, Nat.shiftRight_eq_div_pow, limbAt_cons_succ, rippleCarry_cons]
        exact ih (Nat.succ.inj hl) _ (Nat.lt_of_succ_lt_succ hi)

/-- Settles O22: the carries are those of the adder's loop from carry 0. -/
theorem addIsTheRippleCarrySum : Obligations.AddIsTheRippleCarrySum := by
  intro d r s hs
  have hl : (s.getV d).length = (s.getV r).length := (hs.1 d).trans (hs.1 r).symm
  obtain ⟨hlen, hval⟩ := State.rippleAdd_getV hs d r
  exact ⟨decode_of_eq_encode (cmdWord_eq_packWord 0x12#8 0#8 d r) rfl,
    rippleAdd (s.getV d) (s.getV r) 0, rippleCarry (s.getV d) (s.getV r) 0, rfl, hlen, hval, rfl,
    fun i hi => ⟨limbAt_rippleAdd hl 0 (by rwa [hs.1 d]), rfl,
      rippleCarry_le_one _ _ (by decide) (i + 1)⟩⟩

/-- Settles O24: the complement-and-carry form is the true difference. -/
theorem subtcSubtractsModulo : Obligations.SubtcSubtractsModulo := by
  intro d r s hs
  obtain ⟨hlen, hval⟩ := State.subtractTc_getV hs d r
  exact ⟨decode_of_eq_encode (cmdWord_eq_packWord 0x14#8 0#8 d r) rfl,
    subtractTc (s.getV d) (s.getV r), rfl, hlen, hval⟩

/-! ### SUB -/

/-- Settles O23: SUB is ADD in the state whose V[RS] is flipped; where RD = RS both operands are the
flipped value, and twice 2^(N-1) is 0 modulo 2^N. -/
theorem subFlipsItsArgumentAndAdds : Obligations.SubFlipsItsArgumentAndAdds := by
  intro d r s hs
  have hb : (flipSign s.limbs (s.getV r)).length = s.limbs :=
    (flipSign_length _ _).trans (hs.1 r)
  obtain ⟨hxor, hadd⟩ := State.val_flipSign_getV hs r
  obtain ⟨hlen, hval⟩ := State.rippleAdd_getV (State.wf_setV hs r hb) d r
  rw [State.getV_setV_same, State.setV_limbs] at hlen hval
  refine ⟨decode_of_eq_encode (cmdWord_eq_packWord 0x13#8 0#8 d r) rfl,
    flipSign s.limbs (s.getV r), _, exec_sub d r s, hb, hlen, hxor, fun hne => ?_, ?_⟩
  · rw [State.getV_setV_other _ _ hne.symm] at hval ⊢
    have hsum : val (rippleAdd (s.getV d) (flipSign s.limbs (s.getV r)) 0) =
        (val (s.getV d) + val (s.getV r) + 2 ^ (32 * s.limbs - 1)) % 2 ^ (32 * s.limbs) := by
      rw [hval, hadd, Nat.add_mod_mod, ← Nat.add_assoc]
    refine ⟨hval, hsum, ?_⟩
    rw [hsum, ← State.add_val_add_half_eq_sub_iff hs (val (s.getV d)) r]
    norm_cast
  · rintro rfl
    rw [State.getV_setV_same] at hval ⊢
    have htwice : 2 ^ (32 * s.limbs) = 2 * 2 ^ (32 * s.limbs - 1) := by
      have hquarters := two_pow_eq_quarters s.two_le_width
      omega
    refine ⟨hval, ?_⟩
    rw [hval, hadd, ← Nat.add_mod, ← Nat.add_mod_right (2 * val (s.getV d))]
    congr 1
    omega

/-! ### MUL -/

/-- Settles O25: the schoolbook loop computes the product modulo 2^N. -/
theorem mulPropagateIsTheProduct : Obligations.MulPropagateIsTheProduct := by
  intro d r s hs hm
  refine ⟨decode_of_eq_encode (cmdWord_eq_packWord 0x15#8 0#8 d r) rfl,
    mulPropagate s.limbs (s.getV d) (s.getV r), ?_, mulPropagate_length _ _ _,
    val_mulPropagate _ _ _ (hs.1 d)⟩
  rw [exec_mul, hm]
  rfl

/-- What row f adds to column k of mul_drop: half-word k-f of a[f] * b (42_arithmetic.md R139). -/
def rowHalfWord (a b : Value) (k f : Nat) : Nat :=
  (limbAt a f).toNat * val b / 2 ^ (32 * (k - f)) % 2 ^ 32

/-- Column k after n passes of the outer loop of mul_drop: the rows at or below it that have run. -/
theorem limbAt_foldl_mulPassDrop (L : Nat) (a b : Value) {k : Nat} (hk : k < L) (n : Nat) :
    (limbAt ((List.range n).foldl (mulPassDrop L a b) (zeroValue L)) k).toNat =
      (∑ f ∈ Finset.range n, if f ≤ k then rowHalfWord a b k f else 0) % 2 ^ 32 := by
  induction n with
  | zero => simp
  | succ n ih =>
    have hl := foldl_mulPassDrop_length L a b (zeroValue L) (List.range n)
    rw [List.range_succ, List.foldl_append, List.foldl_cons, List.foldl_nil,
      limbAt_mulPassDrop L a b _ n k hk (hl.trans (zeroValue_length L)), ih, Finset.sum_range_succ]
    split
    · exact Nat.mod_add_mod _ _ _
    · rfl

/-- Limb k of the result of mul_drop is the sum of its column modulo 2^32 (42_arithmetic.md R139). -/
theorem limbAt_mulDrop (L : Nat) (a b : Value) {k : Nat} (hk : k < L) :
    (limbAt (mulDrop L a b) k).toNat =
      (∑ f ∈ Finset.range (k + 1), rowHalfWord a b k f) % 2 ^ 32 := by
  have hrows : (Finset.range L).filter (· ≤ k) = Finset.range (k + 1) := by
    ext f
    simp only [Finset.mem_filter, Finset.mem_range]
    omega
  rw [mulDrop, limbAt_foldl_mulPassDrop L a b hk, ← Finset.sum_filter, hrows]

/-- Settles O26: each limb is the sum of its column. -/
theorem mulDropSumsColumnsWithoutCarry : Obligations.MulDropSumsColumnsWithoutCarry := by
  intro d r s _ hm
  refine ⟨mulDrop s.limbs (s.getV d) (s.getV r), ?_, mulDrop_length _ _ _,
    fun k hk => limbAt_mulDrop _ _ _ hk⟩
  rw [exec_mul, hm]
  rfl

/-! ### MUL by 0 and by 1 -/

theorem rowHalfWord_of_val_zero (a : Value) {b : Value} (hb : val b = 0) (k f : Nat) :
    rowHalfWord a b k f = 0 := by
  simp [rowHalfWord, hb]

/-- A row times 1 is its limb, in its own column alone. -/
theorem rowHalfWord_of_val_one (a : Value) {b : Value} (hb : val b = 1) (k f : Nat) (hf : f ≤ k) :
    rowHalfWord a b k f = if f = k then (limbAt a k).toNat else 0 := by
  have hlt := (limbAt a f).isLt
  rw [rowHalfWord, hb, Nat.mul_one]
  split_ifs with h
  · rw [h, Nat.sub_self, Nat.mul_zero, Nat.pow_zero, Nat.div_one, Nat.mod_eq_of_lt (h ▸ hlt)]
  · rw [Nat.div_eq_of_lt (hlt.trans_le (Nat.pow_le_pow_right (by decide) (by omega))), Nat.zero_mod]

/-- a * 0 = 0 in either mode (42_arithmetic.md R137). -/
theorem mulResult_of_val_zero (m : MulCarry) {L : Nat} {a b : Value} (ha : a.length = L)
    (hb : val b = 0) : mulResult m L a b = zeroValue L := by
  cases m with
  | propagate =>
    apply val_injective ((mulPropagate_length L a b).trans (zeroValue_length L).symm)
    rw [val_mulPropagate L a b ha, hb, Nat.mul_zero, Nat.zero_mod, val_zeroValue]
  | drop =>
    change mulDrop L a b = zeroValue L
    refine ext_limbAt ((mulDrop_length L a b).trans (zeroValue_length L).symm) fun k hk => ?_
    rw [mulDrop_length] at hk
    apply BitVec.eq_of_toNat_eq
    simp [limbAt_mulDrop L a b hk, rowHalfWord_of_val_zero a hb]

/-- a * 1 = a in either mode (42_arithmetic.md R137). -/
theorem mulResult_of_val_one (m : MulCarry) {L : Nat} {a b : Value} (ha : a.length = L)
    (hb : val b = 1) : mulResult m L a b = a := by
  cases m with
  | propagate =>
    apply val_injective ((mulPropagate_length L a b).trans ha.symm)
    have hlt := val_lt a
    rw [ha] at hlt
    rw [val_mulPropagate L a b ha, hb, Nat.mul_one, Nat.mod_eq_of_lt hlt]
  | drop =>
    change mulDrop L a b = a
    refine ext_limbAt ((mulDrop_length L a b).trans ha.symm) fun k hk => ?_
    rw [mulDrop_length] at hk
    apply BitVec.eq_of_toNat_eq
    have hcolumn : ∀ f ∈ Finset.range (k + 1),
        rowHalfWord a b k f = if f = k then (limbAt a k).toNat else 0 := fun f hf =>
      rowHalfWord_of_val_one a hb k f (Finset.mem_range_succ_iff.mp hf)
    rw [limbAt_mulDrop L a b hk, Finset.sum_congr rfl hcolumn, Finset.sum_ite_eq',
      if_pos (Finset.self_mem_range_succ k), Nat.mod_eq_of_lt (limbAt a k).isLt]

/-- Settles O27: both modes, for the register MUL writes. -/
theorem mulByZeroAndOneInBothModes : Obligations.MulByZeroAndOneInBothModes := by
  intro d r s t ⟨hlen, _⟩ ht
  have hget : t.getV d = mulResult s.params.mulCarry s.limbs (s.getV d) (s.getV r) := by
    rw [exec_mul] at ht
    cases ht
    exact State.getV_setV_same _ _ _
  rw [hget]
  exact ⟨mulResult_of_val_zero _ (hlen d), mulResult_of_val_one _ (hlen d)⟩

/-! ### The signed reading -/

/-- Bit N-1 of a value is 1 from 2^(N-1) on (00_scope.md R14). -/
theorem msb_topLimb_iff {a : Value} (ha : 0 < a.length) :
    (limbAt a (a.length - 1)).msb = true ↔ 2 ^ (32 * a.length - 1) ≤ val a := by
  have hlt := val_lt a
  obtain ⟨n, hn⟩ := Nat.exists_eq_add_of_le' ha
  rw [hn, two_pow_limb_succ] at hlt
  have htop : (limbAt a n).toNat = val a / 2 ^ (32 * n) := by
    rw [limbAt_toNat, Nat.mod_eq_of_lt (Nat.div_lt_of_lt_mul (by rwa [Nat.mul_comm]))]
  rw [hn, Nat.add_sub_cancel, BitVec.msb_eq_decide, decide_eq_true_eq, htop,
    Nat.le_div_iff_mul_le (Nat.two_pow_pos _), ← Nat.pow_add,
    show 32 - 1 + 32 * n = 32 * (n + 1) - 1 by omega]

/-- The signed value of a register is its value modulo 2^N. -/
theorem signedVal_modEq {a : Value} {L : Nat} (ha : a.length = L) :
    signedVal a ≡ val a [ZMOD 2 ^ (32 * L)] := by
  subst ha
  rw [signedVal]
  split
  · exact Int.sub_emod_right _ _
  · rfl

/-- The signed range (00_scope.md R14). -/
theorem signedVal_range {a : Value} {L : Nat} (ha : a.length = L) (hL : 0 < L) :
    -(2 : Int) ^ (32 * L - 1) ≤ signedVal a ∧ signedVal a < (2 : Int) ^ (32 * L - 1) := by
  subst ha
  have hlt : (val a : Int) < 2 ^ (32 * a.length) := by exact_mod_cast val_lt a
  have hpow : (2 : Int) ^ (32 * a.length) = 2 * 2 ^ (32 * a.length - 1) := by
    rw [← pow_succ']
    congr 1
    omega
  have hmsb : (limbAt a (a.length - 1)).msb = true ↔ (2 : Int) ^ (32 * a.length - 1) ≤ val a := by
    rw [msb_topLimb_iff hL]
    norm_cast
  rw [signedVal]
  split_ifs with h
  · have := hmsb.mp h
    omega
  · have := mt hmsb.mpr h
    omega

/-- A value that is n modulo 2^N has n as its signed value modulo 2^N. -/
theorem signedVal_modEq_of_val_eq {a : Value} {L : Nat} {n : Int} (ha : a.length = L)
    (hn : (val a : Int) = n % 2 ^ (32 * L)) : signedVal a ≡ n [ZMOD 2 ^ (32 * L)] :=
  calc signedVal a ≡ val a [ZMOD 2 ^ (32 * L)] := signedVal_modEq ha
    _ = n % 2 ^ (32 * L) := hn
    _ ≡ n [ZMOD 2 ^ (32 * L)] := Int.mod_modEq _ _

/-- Settles O29: signed values and values are the same modulo 2^N. -/
theorem signedReadingOfAddAndSubtc : Obligations.SignedReadingOfAddAndSubtc := by
  intro d r s t u hs ht hu
  have hsum : t.getV d = rippleAdd (s.getV d) (s.getV r) 0 := by
    cases ht
    exact State.getV_setV_same _ _ _
  have hdiff : u.getV d = subtractTc (s.getV d) (s.getV r) := by
    cases hu
    exact State.getV_setV_same _ _ _
  obtain ⟨haddLen, haddVal⟩ := State.rippleAdd_getV hs d r
  obtain ⟨hsubLen, hsubVal⟩ := State.subtractTc_getV hs d r
  rw [hsum, hdiff]
  have hd := signedVal_modEq (hs.1 d)
  have hr := signedVal_modEq (hs.1 r)
  have hadd := (signedVal_modEq_of_val_eq haddLen (by exact_mod_cast haddVal)).trans
    (hd.add hr).symm
  have hsub := (signedVal_modEq_of_val_eq hsubLen hsubVal).trans (hd.sub hr).symm
  exact ⟨Int.emod_eq_emod_iff_emod_sub_eq_zero.mp hadd,
    Int.emod_eq_emod_iff_emod_sub_eq_zero.mp hsub, signedVal_range haddLen s.limbs_pos⟩

end Sys2Proof.Machine
end

section
/-! Proofs of the statement about TOHEX (43_serialization.md). -/

namespace Sys2Proof.Machine

open Sys2Proof.Laws Sys2Proof.Claims

/-! ### The words of TOHEX -/

/-- The case codes 0 and 1 are legal and pick lower and upper case (30_encoding.md R78). -/
theorem caseCodeOk_and_isUpper {k : Nat} (hk : k < 2) :
    caseCodeOk (BitVec.ofNat 8 k) = true ∧ isUpper (BitVec.ofNat 8 k) = decide (k ≠ 0) := by
  revert k
  decide

/-- No other case code is legal (30_encoding.md R76). -/
theorem lt_two_of_caseCodeOk {k : Nat} (hk : k < 256) (h : caseCodeOk (BitVec.ofNat 8 k) = true) :
    k < 2 := by
  rw [← show (BitVec.ofNat 8 k).toNat = k from Nat.mod_eq_of_lt hk]
  obtain h0 | h0 := caseCode_cases _ h <;> rw [h0] <;> decide

/-- The statements' word of TOHEX's OPC with case code `k` (30_encoding.md R78). -/
theorem cmdWord_tohex (d r : Reg) {k : Nat} (hk : k < 256) :
    cmdWord 0x18 d r k = packWord (BitVec.ofNat 8 k) r d (opcOf .tohex) := by
  have h := cmdWord_eq_packWord 0x18#8 (BitVec.ofNat 8 k) d r
  rwa [show (BitVec.ofNat 8 k).toNat = k from Nat.mod_eq_of_lt hk] at h

/-- A word of TOHEX's OPC decodes only with RD = 0 and a legal case code (30_encoding.md R76). -/
theorem decode_packWord_tohex {d r : Reg} {fn : BitVec 8} {i : Instr}
    (h : decode (packWord fn r d (opcOf .tohex)) = .ok i) : d = 0 ∧ caseCodeOk fn = true := by
  obtain ⟨o, hopc, hmask, -⟩ := decode_eq_ok _ _ h
  have ho : some Operation.tohex = some o := by
    rw [← operationOf_opcOf, ← operationOf_opcOf, ← hopc, opcField_packWord]
  cases ho
  have henc := congrArg rdField (encode_instrOf hmask)
  have hwf := instrOf_wellFormed hmask
  simp only [instrOf, encode, rdField_packWord] at henc
  simp only [instrOf, Instr.wellFormed, fnField_packWord] at hwf
  exact ⟨henc.symm, hwf⟩

/-! ### The digits -/

/-- The character of a digit, as a number (43_serialization.md R151). -/
theorem hexChar_eq_ofNat (nib : Nat) (u : Bool) :
    hexChar nib u = BitVec.ofNat 8
      (if nib < 10 then 0x30 + nib else if u then 0x41 + (nib - 10) else 0x61 + (nib - 10)) := by
  simp only [hexChar, apply_ite (BitVec.ofNat 8)]

/-- The string is stored from BUF[0] on: character 8i+q is digit q of limb i
(43_serialization.md R150). -/
theorem read_writeList_hexString (m : Memory) {a : Value} (u : Bool) {i q : Nat}
    (hi : i < a.length) (hq : q < 8) :
    Memory.read (Memory.writeList m 0 (hexString a u)) (8 * i + q) =
      some (hexChar ((limbAt a i).toNat / 2 ^ (4 * (7 - q)) % 16) u) := by
  have hin : 8 * i + q < 0 + (hexString a u).length := by
    rw [hexString_length]
    omega
  rw [Memory.read_writeList, if_pos ⟨Nat.zero_le _, hin⟩, Nat.sub_zero,
    hexString_getElem? a u i q hi hq, Nat.shiftRight_eq_div_pow,
    show 0xF = 2 ^ 4 - 1 by rfl, Nat.and_two_pow_sub_one_eq_mod]

/-- Settles O30: the string is the digits of the limbs in order, and only words with RD = 0 and case
code 0 or 1 decode. -/
theorem tohexWritesTheDigits : Obligations.TohexWritesTheDigits := by
  intro d r k s hs hk
  refine ⟨fun hbad => ?_, fun hk2 => ?_⟩
  · rw [cmdWord_tohex d r hk]
    obtain ⟨i, hi, -⟩ | ⟨e, -, hrun⟩ := runCommand_cases
      (packWord (BitVec.ofNat 8 k) r d (opcOf .tohex)) s
    · obtain ⟨hd, hcase⟩ := decode_packWord_tohex hi
      have hlt := lt_two_of_caseCodeOk hk hcase
      exact absurd hbad (by simp [hd, hlt])
    · exact hrun
  · obtain ⟨hok, hup⟩ := caseCodeOk_and_isUpper hk2
    have hexec := exec_tohex r (BitVec.ofNat 8 k) s
    obtain ⟨-, hrest, -⟩ := tohexFrame r _ s _ hs hexec
    have hlen : 8 * s.limbs = 32 * s.limbs / 4 := by omega
    refine ⟨decode_of_eq_encode (cmdWord_tohex 0 r hk) hok,
      Memory.writeList s.buf 0 (hexString (s.getV r) (isUpper (BitVec.ofNat 8 k))), ?_,
      fun i hi q hq nib hnib => ?_, fun a ha => hrest a (Nat.not_lt.mpr ha)⟩
    · rw [hexec, hlen]
      rfl
    · rw [read_writeList_hexString _ _ (by rwa [hs.1 r]) hq, ← hnib, hexChar_eq_ofNat, hup]
      simp only [decide_eq_true_eq, ne_eq, ite_not]

end Sys2Proof.Machine
end

section
/-! Proofs of the statements about errors and the interrupt line (60_exceptions.md). -/

namespace Sys2Proof.Machine

open Sys2Proof.Claims

/-! ### The checks of the buffer commands -/

/-- LDDEC rejects a string that BUF cannot hold (60_exceptions.md R164). -/
theorem exec_lddec_of_long (d : Reg) {s : State} (h : 256 < s.len.toNat) :
    exec (.lddec d) s = .next (raised s .size) := by
  obtain ⟨-, hexec⟩ | ⟨hle, -⟩ | ⟨hle, -⟩ | ⟨x, hle, -⟩ := execLddec_cases d s
  · exact hexec
  all_goals omega

/-- LDDEC rejects a string with a character that is no digit, in either DEC_MODE
(60_exceptions.md R165). -/
theorem exec_lddec_of_not_allDigits (d : Reg) {s : State} (hlen : s.len.toNat ≤ 256)
    (hd : ¬ allDigits s) : exec (.lddec d) s = .next (raised s .digit) := by
  rw [← bufPrefix_all_isDigit_iff] at hd
  obtain ⟨hgt, -⟩ | ⟨-, -, hexec⟩ | ⟨-, hall, -⟩ | ⟨x, -, hall, -⟩ := execLddec_cases d s
  · omega
  · exact hexec
  · exact absurd hall hd
  · exact absurd hall hd

/-- LDBYTES rejects a buffer of more than N/8 bytes (60_exceptions.md R164). -/
theorem exec_ldbytes_of_long (d : Reg) {s : State} (h : 4 * s.limbs < s.len.toNat) :
    exec (.ldbytes d) s = .next (raised s .size) := by
  obtain ⟨-, hexec⟩ | ⟨hle, -⟩ := execLdbytes_cases d s
  · exact hexec
  · omega

/-- Settles O13: the two checks come before the conversion, in the order of R169. -/
theorem bufferChecksRaiseSizeThenDigit : Obligations.BufferChecksRaiseSizeThenDigit :=
  fun d _ => ⟨exec_lddec_of_long d, exec_lddec_of_not_allDigits d, exec_ldbytes_of_long d⟩

/-! ### What an error leaves -/

/-- A command word leaves ERR, or its whole effect is that of an error other than E_BUSY
(60_exceptions.md R167). -/
theorem runCommand_keeps_err_or_raises {c : Word} {s t : State} (h : runCommand c s = .next t) :
    t.err = s.err ∨ ∃ e, e ≠ .none ∧ e ≠ .busy ∧ t = raised s e := by
  obtain ⟨i, -, h'⟩ | ⟨e, -, h'⟩ := runCommand_cases c s
  · exact (exec_status (h' ▸ h)).1
  · cases h'.symm.trans h
    exact .inr ⟨.illegal, by decide, by decide, rfl⟩

/-- ERR takes the code of the first error (10_state.md R34). -/
theorem raised_err_of_none {s : State} (e : ErrCode) (h : s.err = .none) : (raised s e).err = e :=
  if_pos h

/-- Settles O36: ERR changes only by an error recorded in an ERR that was 0. -/
theorem failedCommandWritesNothing : Obligations.FailedCommandWritesNothing := by
  intro c s t h hne
  obtain hkeep | ⟨e, hnone, hbusy, rfl⟩ := runCommand_keeps_err_or_raises h
  · exact absurd hkeep hne
  · have h0 : s.err = .none := (s.recordErr_err_eq_or e).resolve_left hne
    rw [raised_err_of_none e h0]
    exact ⟨h0, hnone, hbusy, rfl⟩

/-! ### Discarded commands and ERRCLR -/

/-- ERRCLR alone clears ERR and leaves the rest of the block (60_exceptions.md R172). -/
theorem hostAccess_wr_errClear (s : State) :
    hostAccess (wr s 0x008 0x80000000#32) s =
      .next { s with err := .none, response := .written } := by
  have h1 : (0x80000000#32).getLsbD 1 = false := rfl
  have h31 : (0x80000000#32).getLsbD 31 = true := rfl
  rw [statusWriteClearsDoneAndErr, h1, if_pos h31, Bool.not_false, Bool.and_true]

/-- Settles O45: the discarded write is O43's second case, the accepted one its third. -/
theorem commandsWaitForErrorClear : Obligations.CommandsWaitForErrorClear := by
  intro c rest s hb he
  refine ⟨fun hs => ?_, _, _, hostAccess_wr_errClear s, ?_, rfl⟩
  · obtain ⟨-, hdiscard, -⟩ := cmdWriteIssuesOrNot c { s with schedule := rest }
    rw [step_of_schedule hs]
    exact congrArg afterStep (hdiscard hb he)
  · obtain ⟨-, -, haccept, -⟩ :=
      cmdWriteIssuesOrNot c { s with err := .none, response := .written }
    exact (haccept hb rfl).1

/-! ### E_BUSY -/

/-- The offsets of CMD, LEN, SCALAR and the BUF window name the ports whose writes a busy block
rejects (60_exceptions.md R163). -/
theorem writePort_raisesBusy {off : Nat} {s : State} (v : Word) (hb : s.busy = true)
    (hoff : off = 0x00C ∨ off = 0x010 ∨ off = 0x018 ∨ off = 0x01C ∨
      (0x100 ≤ off ∧ off < 0x200 ∧ off % 4 = 0)) :
    s.writePort (portOf off) v = s.raiseBusy := by
  obtain rfl | rfl | rfl | rfl | ⟨hlo, hhi, h4⟩ := hoff
  · exact State.issue_busy v hb
  · exact if_pos hb
  · exact if_pos hb
  · exact if_pos hb
  · obtain ⟨k, rfl⟩ : ∃ k, off = 0x100 + 4 * k := ⟨(off - 0x100) / 4, by omega⟩
    rw [portOf_bufWindow (by omega)]
    exact if_pos hb

/-- A command word that has ended is not in flight, and DONE is 1 (10_state.md R31). -/
theorem runCommand_inFlight_done {c : Word} {s t : State} (h : runCommand c s = .next t) :
    t.inFlight = none ∧ t.done = true := by
  obtain ⟨t', ht', hb, hd⟩ := runCommand_ends c s
  cases ht'.symm.trans h
  exact ⟨by simpa [State.busy] using hb, hd⟩

/-- Settles O46: E_BUSY is recorded in the host interface, which no command reads. -/
theorem busyRejectsDataWrites : Obligations.BusyRejectsDataWrites := by
  intro off v s hb hoff
  refine ⟨?_, fun c u _ hu => ?_⟩
  · refine (hostAccess_write_word s off v (by omega) (by omega)).trans ?_
    rw [writePort_raisesBusy v hb hoff]
    rfl
  · obtain ⟨u₁, u', h₁, hu', hsame⟩ := runCommand_withInterface c s (rejectedBusy s)
    cases h₁.symm.trans hu
    obtain ⟨hf, hd⟩ := runCommand_inFlight_done hu
    obtain ⟨hf', hd'⟩ := runCommand_inFlight_done hu'
    exact ⟨u', hu', hsame, hd'.trans hd.symm, hf'.trans hf.symm⟩

/-! ### What stops the machine -/

/-- A host access is answered, or it is outside the register space and is the fault
(20_memory.md R50). -/
theorem hostAccess_answers_or_outside (a : Access) (s : State) :
    (∃ t, hostAccess a s = .next t) ∨
    (Turn.inside s.params (.hostAndUnit a) = false ∧
      hostAccess a s = .fault .outsideRegisterSpace) := by
  obtain h | ⟨x, h⟩ | ⟨off, v, -, -, -, h⟩ := hostAccess_cases a s
  · refine .inr ⟨Bool.eq_false_iff.mpr fun hin => ?_, h⟩
    obtain ⟨t, ht⟩ := hostAccess_answers hin
    cases h.symm.trans ht
  · exact .inl ⟨_, h⟩
  · exact .inl ⟨_, h⟩

/-- An access is inside the register space whether or not a command ends in its step. -/
theorem Turn.inside_host (p : Config.Params) (a : Access) :
    Turn.inside p (.host a) = Turn.inside p (.hostAndUnit a) := by
  cases a <;> rfl

/-- The unit's turn never stops the machine (60_exceptions.md R171). -/
theorem unitTurn_answers (s : State) : ∃ t, unitTurn s = .next t := by
  obtain ⟨c, -, h⟩ | ⟨-, h⟩ := unitTurn_cases s
  · rw [h]; exact runCommand_answers c s
  · exact ⟨s, h⟩

/-- A turn is answered, or it is an access outside the register space. -/
theorem takeTurn_answers_or_outside (u : Turn) (s : State) :
    (∃ t, takeTurn u s = .next t) ∨
    (Turn.inside s.params u = false ∧ takeTurn u s = .fault .outsideRegisterSpace) := by
  cases u with
  | host a => rw [Turn.inside_host]; exact hostAccess_answers_or_outside a s
  | unit => exact .inl (unitTurn_answers s)
  | hostAndUnit a =>
    obtain ⟨s', h⟩ | ⟨hin, h⟩ := hostAccess_answers_or_outside a s
    · left
      simp only [takeTurn, hostAndUnitTurn, h]
      split
      · exact unitTurn_answers s'
      · exact ⟨s', rfl⟩
    · exact .inr ⟨hin, by simp only [takeTurn, hostAndUnitTurn, h]⟩
  | reset => exact .inl ⟨_, rfl⟩

/-- A step is answered, or its turn is an access outside the register space. -/
theorem step_answers_or_outside (s : State) :
    SafeStep s ∨
    ((∃ u ∈ s.schedule.head?, Turn.inside s.params u = false) ∧
      step s = .fault .outsideRegisterSpace) := by
  cases hs : s.schedule with
  | nil =>
    obtain ⟨t, ht⟩ := unitTurn_answers s
    exact .inl ⟨t.tick, by rw [step_of_empty_schedule hs, ht]; rfl⟩
  | cons u rest =>
    obtain ⟨t, ht⟩ | ⟨hin, hf⟩ := takeTurn_answers_or_outside u { s with schedule := rest }
    · exact .inl ⟨t.tick, by rw [step_of_schedule hs, ht]; rfl⟩
    · exact .inr ⟨⟨u, rfl, hin⟩, by rw [step_of_schedule hs, hf]; rfl⟩

/-- Settles O60: a step that is not answered takes an access outside the register space, and that is
its fault. -/
theorem onlyOutsideAccessesStop : Obligations.OnlyOutsideAccessesStop := by
  intro s
  obtain ⟨t, ht⟩ | ⟨⟨u, hu, hout⟩, hf⟩ := step_answers_or_outside s
  · exact ⟨fun _ => ⟨t, ht⟩, by simp [ht], by simp [ht]⟩
  · refine ⟨fun hin => ?_, fun f h => ?_, by simp [hf]⟩
    · simp [hin u hu] at hout
    · cases hf.symm.trans h
      rfl

/-! ### The interrupt line -/

/-- Only "no error" has code 0 (60_exceptions.md R160). -/
theorem errCode_eq_zero_iff (e : ErrCode) : errCode e = 0#4 ↔ e = .none := by
  cases e <;> decide

/-- The fields of STATUS that the interrupt line follows, busy or not (10_state.md R29). -/
theorem State.statusWord_done_err (s : State) :
    s.statusWord.getLsbD 1 = s.done ∧ s.statusWord.extractLsb' 8 4 = errCode s.err := by
  obtain ⟨m, c, h⟩ := s.statusWord_eq_statusWith
  obtain ⟨-, hdone, -, -, -, -, herr, -⟩ := statusWith_fields s m c
  exact h ▸ ⟨hdone, herr⟩

/-- Settles O55: the bits that the host reads are the fields of R174's formula. -/
theorem irqFollowsItsFields : Obligations.IrqFollowsItsFields := by
  intro s
  obtain ⟨hdoneIe, herrIe, -⟩ := ctrlWord_fields s
  obtain ⟨hdone, herr⟩ := s.statusWord_done_err
  refine ⟨?_, fun k => by simp [State.hostIrqInput]⟩
  rw [hdoneIe, herrIe, hdone, herr, ne_eq, errCode_eq_zero_iff]
  simp [State.irq]

end Sys2Proof.Machine
end

section
/-! Proofs of the statements about reset and about RD = RS (70_reset_and_hazards.md). -/

namespace Sys2Proof.Machine

open Sys2Proof.Claims

/-! ### Reset -/

/-- After reset each register holds L zero limbs (10_state.md R40). -/
@[simp] theorem State.blockReset_getV (s : State) (r : Reg) :
    s.blockReset.getV r = List.replicate s.limbs 0#32 := by
  simp [State.blockReset, State.resetOf, State.getV, State.limbs]

/-- After reset CTRL reads 0: it has the bits of every build's reset state (10_state.md R40). -/
theorem State.blockReset_tick_ctrlWord (s : State) : s.blockReset.tick.ctrlWord = 0#32 := by
  change State.reset.ctrlWord = 0#32
  decide

/-- After reset STATUS reads 0: the unit is idle, and EQ and "no error" have code 0
(10_state.md R40). -/
theorem State.blockReset_tick_statusWord (s : State) : s.blockReset.tick.statusWord = 0#32 := by
  rw [State.statusWord_idle rfl]
  change State.reset.statusWith false (cmpCode .eq) = 0#32
  decide

/-- Settles O57: the reset turn is answered by `blockReset`, whose fields are those of the reset
state; BUF lists no byte there, so each one reads as a free value. -/
theorem resetEventRestoresResetValues : Obligations.ResetEventRestoresResetValues := by
  intro rest s hs
  have hregs := State.blockReset_getV { s with schedule := rest }
  have hctrl := State.blockReset_tick_ctrlWord { s with schedule := rest }
  have hstatus := State.blockReset_tick_statusWord { s with schedule := rest }
  exact ⟨_, step_of_schedule hs, hregs, hctrl, hstatus, rfl, rfl, rfl, rfl, fun _ => rfl, rfl⟩

/-! ### RD = RS -/

/-- The register that a command's last write names holds the value written. -/
@[simp] theorem endsWith_set_getV (s : State) (v : Vector Value 16) (d : Reg) (x : Value) :
    (endsWith s (v.set d x)).getV d = x := by
  simp [endsWith, State.getV]

/-- Settles O28: each command's own statement at RS = RD. -/
theorem sameRegisterResults : Obligations.SameRegisterResults := by
  intro d s hs
  refine ⟨?mov, ?cmp, ?add, ?sub, ?subtc, ?mul⟩
  case mov =>
    obtain ⟨-, hexec, hkeep⟩ := movCopies d d s
    exact ⟨_, hexec, hkeep⟩
  case cmp =>
    obtain ⟨-, c, hexec, -, -, heq⟩ := cmpIsTheFirstDifferingLimb d d s hs
    exact ⟨_, hexec, heq.mpr rfl⟩
  case add =>
    obtain ⟨-, x, -, hexec, -, hval, -⟩ := addIsTheRippleCarrySum d d s hs
    exact ⟨_, hexec, by rw [endsWith_set_getV, hval, Nat.two_mul]⟩
  case sub =>
    obtain ⟨-, b, x, hexec, -, -, -, -, hsame⟩ := subFlipsItsArgumentAndAdds d d s hs
    obtain ⟨-, hval⟩ := hsame rfl
    exact ⟨_, hexec, by rw [endsWith_set_getV, hval]⟩
  case subtc =>
    obtain ⟨-, x, hexec, -, hval⟩ := subtcSubtractsModulo d d s hs
    rw [Int.sub_self, Int.zero_emod] at hval
    exact ⟨_, hexec, by rw [endsWith_set_getV]; exact_mod_cast hval⟩
  case mul =>
    obtain ⟨t, ht⟩ := exec_answers (.mul d d) s
    refine ⟨t, ht, fun hm => ?_⟩
    obtain ⟨-, x, hexec, -, hval⟩ := mulPropagateIsTheProduct d d s hs hm
    cases hexec.symm.trans ht
    exact (congrArg val (endsWith_set_getV s s.v d x)).trans hval

end Sys2Proof.Machine
end
